-- ==== Sys2Proof/Word.lean ====
section
/-! DEFINITION. The word types of the engine (spec 00_scope.md R9, 10_state.md R14): bytes, the 32-bit
patterns of the table, the 64-bit host registers, the table and the cursors. -/

namespace Sys2Proof

/-- One byte: a command code (R46) or a position of the buffer space (R31). -/
abbrev Byte := BitVec 8

/-- The pattern of an `i32` (R9); `BitVec.toInt` is the spec's `signed32`. -/
abbrev Word := BitVec 32

/-- A 64-bit host register (R20, R21). -/
abbrev DWord := BitVec 64

/-- The table `T`: 56 words, indices 0 to 55 (R16). -/
abbrev Table := Vector Word 56

/-- A table index, in `[0, 55]` (R17, R32). -/
abbrev Cursor := Fin 56

end Sys2Proof
end

