-- ==== Sys2Proof/Machine/Constants.lean ====
section
/-! DEFINITION. The constants of spec 00_scope.md R7. -/

namespace Sys2Proof.Machine

/-- `MAX`, the largest `i32` and the modulus of every fold. -/
def MAX : Int := 2147483647

/-- `MAX` as a 32-bit pattern. -/
def maxWord : Word := 0x7FFFFFFF#32

/-- `MIN`, the smallest `i32`, as a 32-bit pattern. -/
def minWord : Word := 0x80000000#32

/-- `MSEED`. -/
def MSEED : Word := 161803398#32

/-- `STEP`, the stride of the seeding walk. -/
def STEP : Nat := 21

/-- `MIX_OFFSET`, the offset of the mixing partner. -/
def MIX_OFFSET : Nat := 30

/-- `MIX_PASSES`, the number of mixing passes. -/
def MIX_PASSES : Nat := 4

/-- `LAST`, the highest table index. -/
def LAST : Nat := 55

/-- `A0`, the value of `indexA` after seeding. -/
def A0 : Cursor := 0

/-- `B0`, the value of `indexB` after seeding. -/
def B0 : Cursor := 21

/-- `LARGE_BIAS = MAX - 1`, the addend of the large-range sample. -/
def LARGE_BIAS : Int := 2147483646

/-- `LARGE_DIV = 2*MAX - 1`, the divisor of the large-range sample. -/
def LARGE_DIV : Int := 4294967293

/-- `U64_W0`, the width of the first piece of a 64-bit draw. -/
def U64_W0 : Nat := 22

/-- `U64_W1`, the width of the second piece. -/
def U64_W1 : Nat := 22

/-- `U64_W2`, the width of the third piece. -/
def U64_W2 : Nat := 20

end Sys2Proof.Machine
end

