-- ==== Sys2Proof/Machine/Float.lean ====
section
/-! DEFINITION. The floating-point primitives of spec 00_scope.md R11 under the laws of 42_unit_and_bounded.md
R80, and the scale constant (R82). A finite float is a sign and a magnitude counted in the format's smallest
unit: every finite binary64 number is a multiple of 2^-1074, every finite binary32 number of 2^-149, so the
magnitudes are natural numbers and the order of the floats is the order of the naturals. NaN, infinities and
overflow are left out: no rule can produce them (R80; log entry 7). -/

namespace Sys2Proof.Machine

/-- A finite binary64 number, `± mag * 2^-1074`. -/
structure F64 where
  neg : Bool
  mag : Nat
  deriving DecidableEq, Repr

/-- A finite binary32 number, `± mag * 2^-149`. -/
structure F32 where
  neg : Bool
  mag : Nat
  deriving DecidableEq, Repr

/-- `1.0` counted in the smallest unit of binary64. -/
@[irreducible] def F64.unit : Nat := 2 ^ 1074

/-- `1.0` counted in the smallest unit of binary32. -/
@[irreducible] def F32.unit : Nat := 2 ^ 149

/-- How many smallest units of binary64 make one of binary32 (`1074 - 149 = 925`). -/
@[irreducible] def F32.perUnit : Nat := 2 ^ 925

/-- The integer nearest to `a / b`, ties to even. -/
def roundDiv (a b : Nat) : Nat :=
  if 2 * (a % b) < b then a / b
  else if b < 2 * (a % b) then a / b + 1
  else a / b + a / b % 2

/-- The binary exponent of the last place of `a / b` held with `p` significant bits, at least 0: the grid
never gets finer than the smallest unit. -/
def ulpExp (p a b : Nat) : Nat := Nat.log2 (a / b) + 1 - p

/-- `a / b` rounded to `p` significant bits, to nearest, ties to even (R11). -/
def roundSig (p a b : Nat) : Nat := roundDiv a (b * 2 ^ ulpExp p a b) * 2 ^ ulpExp p a b

/-- The exact value in smallest units, with its sign. -/
def F64.toInt (x : F64) : Int := if x.neg then -(x.mag : Int) else x.mag

/-- `f64_of_int(n)`, exact: only used for `|n| < 2^53` (R11, R81). -/
def f64OfInt (n : Int) : F64 := ⟨decide (n < 0), n.natAbs * F64.unit⟩

/-- `mul64(x, y)`. -/
def mul64 (x y : F64) : F64 := ⟨x.neg ^^ y.neg, roundSig 53 (x.mag * y.mag) F64.unit⟩

/-- `add64(x, y)`; an exact sum of zero is `+0.0` unless both operands are negative. -/
def add64 (x y : F64) : F64 :=
  if x.toInt + y.toInt = 0 then ⟨x.neg && y.neg, 0⟩
  else ⟨decide (x.toInt + y.toInt < 0), roundSig 53 (x.toInt + y.toInt).natAbs 1⟩

/-- `div64(x, y)`; `y` is never zero in any rule. -/
def div64 (x y : F64) : F64 := ⟨x.neg ^^ y.neg, roundSig 53 (x.mag * F64.unit) y.mag⟩

/-- `trunc_int(x)`: the fraction discarded, toward zero. -/
def truncInt (x : F64) : Int :=
  if x.neg then -((x.mag / F64.unit : Nat) : Int) else ((x.mag / F64.unit : Nat) : Int)

/-- `f32_of_f64(x)`: rounded to binary32 (R105). -/
def f32OfF64 (x : F64) : F32 := ⟨x.neg, roundSig 24 x.mag F32.perUnit⟩

/-- The IEEE exponent and fraction fields, as one number, of a magnitude with `f` fraction bits. -/
def ieeeFields (f mag : Nat) : Nat := (Nat.log2 mag - f) * 2 ^ f + mag / 2 ^ (Nat.log2 mag - f)

/-- `bits64(x)`: the sign bit, then the 11 exponent and 52 fraction bits. -/
def bits64 (x : F64) : BitVec 64 := BitVec.ofBool x.neg ++ BitVec.ofNat 63 (ieeeFields 52 x.mag)

/-- `bits32f(x)`: the sign bit, then the 8 exponent and 23 fraction bits. -/
def bits32f (x : F32) : BitVec 32 := BitVec.ofBool x.neg ++ BitVec.ofNat 31 (ieeeFields 23 x.mag)

/-- `UNIT_SCALE = div64(1.0, f64_of_int(MAX))` (R82). -/
def UNIT_SCALE : F64 := div64 (f64OfInt 1) (f64OfInt MAX)

/-- The binary32 number 1.0 (R106). -/
def F32.one : F32 := ⟨false, F32.unit⟩

end Sys2Proof.Machine
end

