-- ==== Sys2Proof/Machine/Operands.lean ====
section
/-! DEFINITION. How an operand is read from its register and written into it (spec 30_encoding.md R47 to
R50, R56), and how a result is placed in `RES` (R51). -/

namespace Sys2Proof.Machine

/-- A 32-bit signed operand: bits 31:0 as two's complement, bits 63:32 ignored (R48, R54). -/
def readI32 (w : DWord) : Int := (w.extractLsb' 0 32).toInt

/-- A 64-bit signed operand: the whole register (R49). -/
def readI64 (w : DWord) : Int := w.toInt

/-- A length operand: bits 31:0, unsigned, bits 63:32 ignored (R50). -/
def readU32 (w : DWord) : Nat := (w.extractLsb' 0 32).toNat

/-- `zext_64(bits32(v))`, the register the assembler writes for an `i32` operand (R56). -/
def putI32 (v : Int) : DWord := (BitVec.ofInt 32 v).setWidth 64

/-- The 64-bit pattern of an `i64` operand (R56). -/
def putI64 (v : Int) : DWord := BitVec.ofInt 64 v

/-- `zext_64(n)`, the register the assembler writes for a length (R56). -/
def putU32 (n : Nat) : DWord := (BitVec.ofNat 32 n).setWidth 64

/-- `sext_64(v)` of an `i32` result (R51). -/
def resultI32 (v : Int) : DWord := (BitVec.ofInt 32 v).signExtend 64

/-- `zext_64` of the pattern of an `f32` result (R51). -/
def resultF32 (bits : BitVec 32) : DWord := bits.setWidth 64

end Sys2Proof.Machine
end

