-- ==== Sys2Proof/Syntax.lean ====
section
/-! DEFINITION. The commands, one constructor per row of spec/opcode_table.json, over decoded operands
(spec 30_encoding.md R58). The operands are the integers the spec names; `WellFormed.lean` bounds them. -/

namespace Sys2Proof

/-- The nine commands (R52, R58). -/
inductive Instr where
  /-- `SEED s` (R61), `s : i32`. -/
  | seed (s : Int)
  /-- `NEXT_RAW` (R76). -/
  | nextRaw
  /-- `SAMPLE_UNIT` (R83). -/
  | sampleUnit
  /-- `NEXT_MAX max` (R84), `max : i32`. -/
  | nextMax (hi : Int)
  /-- `NEXT_RANGE min, max` (R86), both `i32`. -/
  | nextRange (lo hi : Int)
  /-- `NEXT_INT64` (R97). -/
  | nextInt64
  /-- `NEXT_INT64_RANGE min, max` (R98), both `i64`. -/
  | nextInt64Range (lo hi : Int)
  /-- `NEXT_SINGLE` (R106). -/
  | nextSingle
  /-- `FILL_BYTES len` (R109), `len : u32`. -/
  | fillBytes (len : Nat)
  deriving DecidableEq, Repr

/-- The name of the command's row in spec/opcode_table.json. -/
def Instr.mnemonic : Instr → String
  | .seed _             => "SEED"
  | .nextRaw            => "NEXT_RAW"
  | .sampleUnit         => "SAMPLE_UNIT"
  | .nextMax _          => "NEXT_MAX"
  | .nextRange _ _      => "NEXT_RANGE"
  | .nextInt64          => "NEXT_INT64"
  | .nextInt64Range _ _ => "NEXT_INT64_RANGE"
  | .nextSingle         => "NEXT_SINGLE"
  | .fillBytes _        => "FILL_BYTES"

/-- The two pseudo-commands of R57. -/
inductive Pseudo where
  | next
  | nextDouble
  deriving DecidableEq, Repr

/-- What a pseudo-command assembles to (R57). -/
def Pseudo.expand : Pseudo → Instr
  | .next       => .nextRaw
  | .nextDouble => .sampleUnit

end Sys2Proof
end

