-- ==== Sys2Proof/WellFormed.lean ====
section
/-! DEFINITION. Which commands exist: each operand lies in the range of its type (spec 00_scope.md R9,
30_encoding.md R48 to R50). -/

namespace Sys2Proof

/-- `v` is an `i32`. -/
def isI32 (v : Int) : Bool := decide (-2147483648 ≤ v) && decide (v ≤ 2147483647)

/-- `v` is an `i64`. -/
def isI64 (v : Int) : Bool := decide (-9223372036854775808 ≤ v) && decide (v ≤ 9223372036854775807)

/-- `n` is a `u32`. -/
def isU32 (n : Nat) : Bool := decide (n < 4294967296)

/-- Every operand is a value of its type (R58). Values that break an operation's contract
(`min > max`, a negative `max`) are well formed: R54 leaves them to the operation. -/
def Instr.wf : Instr → Bool
  | .seed s               => isI32 s
  | .nextRaw              => true
  | .sampleUnit           => true
  | .nextMax hi           => isI32 hi
  | .nextRange lo hi      => isI32 lo && isI32 hi
  | .nextInt64            => true
  | .nextInt64Range lo hi => isI64 lo && isI64 hi
  | .nextSingle           => true
  | .fillBytes len        => isU32 len

end Sys2Proof
end

