-- ==== Sys2Proof/Decode.lean ====
section
/-! DEFINITION. The decoder (spec 30_encoding.md R46 to R54), the encoder after it (R56), and the reading
of a row of spec/opcode_table.json. A command is the byte written to `CMD`, with its operands in `ARG0` and
`ARG1` at that moment (R46). -/

namespace Sys2Proof

open Machine

/-- Why a byte is no command. -/
inductive DecodeError where
  /-- The code selects no row of the opcode map (R53). -/
  | illegalCode (code : Byte)
  deriving DecidableEq, Repr

/-- The opcode map (R52), total on every byte: a code outside 0x01 to 0x09 is rejected (R53). -/
def decode (cmd : Byte) (arg0 arg1 : DWord) : Except DecodeError Instr :=
  match cmd with
  | 0x01#8 => .ok (.seed (readI32 arg0))
  | 0x02#8 => .ok .nextRaw
  | 0x03#8 => .ok .sampleUnit
  | 0x04#8 => .ok (.nextMax (readI32 arg0))
  | 0x05#8 => .ok (.nextRange (readI32 arg0) (readI32 arg1))
  | 0x06#8 => .ok .nextInt64
  | 0x07#8 => .ok (.nextInt64Range (readI64 arg0) (readI64 arg1))
  | 0x08#8 => .ok .nextSingle
  | 0x09#8 => .ok (.fillBytes (readU32 arg0))
  | c      => .error (.illegalCode c)

/-- What one assembler line writes (R56): the command byte, and each operand register or nothing
("unchanged"). -/
structure Encoded where
  cmd  : Byte
  arg0 : Option DWord
  arg1 : Option DWord
  deriving DecidableEq, Repr

/-- The assembler of R56. -/
def encode : Instr → Encoded
  | .seed s               => ⟨0x01#8, some (putI32 s), none⟩
  | .nextRaw              => ⟨0x02#8, none, none⟩
  | .sampleUnit           => ⟨0x03#8, none, none⟩
  | .nextMax hi           => ⟨0x04#8, some (putI32 hi), none⟩
  | .nextRange lo hi      => ⟨0x05#8, some (putI32 lo), some (putI32 hi)⟩
  | .nextInt64            => ⟨0x06#8, none, none⟩
  | .nextInt64Range lo hi => ⟨0x07#8, some (putI64 lo), some (putI64 hi)⟩
  | .nextSingle           => ⟨0x08#8, none, none⟩
  | .fillBytes len        => ⟨0x09#8, some (putU32 len), none⟩

/-- The bits of a table row laid out as the registers of a command: the command byte first, then `ARG0`,
then `ARG1`; bits from `nbits` up are zero. -/
def tableCmd (nbits w : Nat) : Byte := BitVec.ofNat 8 (w % 2 ^ nbits)

/-- `ARG0` of the same layout. -/
def tableArg0 (nbits w : Nat) : DWord := BitVec.ofNat 64 (w % 2 ^ nbits / 2 ^ 8)

/-- `ARG1` of the same layout. -/
def tableArg1 (nbits w : Nat) : DWord := BitVec.ofNat 64 (w % 2 ^ nbits / 2 ^ 72)

/-- The command that the decoder reads from a row's word, its operand registers zero above `nbits`. -/
def decodeTableWord (nbits w : Nat) : Option Instr :=
  match decode (tableCmd nbits w) (tableArg0 nbits w) (tableArg1 nbits w) with
  | .ok i    => some i
  | .error _ => none

end Sys2Proof
end

