-- ==== Sys2Proof/Machine/Arith.lean ====
section
/-! DEFINITION. The integer primitives of spec 00_scope.md R10, with the subtraction and the fold of
41_raw_sample.md R70, R71 (`modular_subtract_and_fold`). -/

namespace Sys2Proof.Machine

/-- `wrap32(z)`: the `i32` equal to `z` modulo 2^32. -/
def wrap32 (z : Int) : Word := BitVec.ofInt 32 z

/-- `wrap64(z)`: the `i64` equal to `z` modulo 2^64. -/
def wrap64 (z : Int) : DWord := BitVec.ofInt 64 z

/-- `umod64(z)`: the `u64` equal to `z` modulo 2^64. -/
def umod64 (z : Int) : Nat := (BitVec.ofInt 64 z).toNat

/-- `sub32(a, b)`: the wrapping 32-bit subtraction (R70). -/
def sub32 (a b : Word) : Word := a - b

/-- `add32(a, b)`: the wrapping 32-bit addition. -/
def add32 (a b : Word) : Word := a + b

/-- `fold(v)`: add `MAX` once to a negative value; the test is on the sign bit (R71). -/
def fold (v : Word) : Word := if v.msb then add32 v maxWord else v

/-- `abs32(s)`: the magnitude, with `MIN` special-cased to `MAX` (R62). -/
def abs32 (s : Word) : Word := if s = minWord then maxWord else if s.msb then -s else s

/-- `ceil_log2(x)`: the least `b` with `2^b >= x` (R99), exact. -/
def ceilLog2 (x : Nat) : Nat := if x ≤ 1 then 0 else Nat.log2 (x - 1) + 1

end Sys2Proof.Machine
end

