-- ==== Sys2Proof/Config.lean ====
section
/-! DEFINITION. What the spec leaves open: the free values. None of them has a body, so nothing can be
proved about which value they take; a statement that mentions one holds for every value. -/

namespace Sys2Proof

/-- Everything of the engine that spec 10_state.md R29 calls unspecified after a reset event. -/
structure Config.ResetValues where
  seed   : Word
  table  : Table
  indexA : Cursor
  indexB : Cursor
  arg0   : DWord
  arg1   : DWord
  res    : DWord
  deriving DecidableEq, Repr, Inhabited

/-- FREE VALUE (log entry 3). What the unspecified registers hold after the `n`-th reset event
(R29, R131; treatment "any value", 93_implementation_defined.md U5, U6). -/
opaque Config.resetValues : Nat → Config.ResetValues

/-- FREE VALUE (log entry 4). The byte, if any, that the buffer holds at a position after the `n`-th reset
event, when that event abandoned a `FILL_BYTES` (R132; "any value for the whole buffer", U12). -/
opaque Config.abandonedByte : Nat → Nat → Option Byte

end Sys2Proof
end

