-- ==== Sys2Proof/Machine/State.lean ====
section
/-! DEFINITION. The state of the engine and its host interface (spec 10_state.md R14), the reasons a step can
stop, and the state after reset (R29). Plain data throughout. -/

namespace Sys2Proof.Machine

/-- `STATUS.ERR`, the outcome of the most recent command (R22, R117). The codes 4 to 7 are never produced. -/
inductive ErrCode where
  /-- The command completed normally. -/
  | ok
  /-- `InvalidRange` (R113). -/
  | invalidRange
  /-- `NotSeeded` (R115). -/
  | notSeeded
  /-- `IllegalCmd` (R114). -/
  | illegalCmd
  deriving DecidableEq, Repr

/-- The generator state proper: the first five rows of R14. -/
structure Gen where
  /-- A seed has been bound since reset (R15). -/
  seeded : Bool
  /-- The bound seed, an `i32` (R15). -/
  seed   : Word
  /-- The table and the cursors hold a value (R18). -/
  init   : Bool
  /-- `T[0]` to `T[55]` (R16). -/
  table  : Table
  /-- Cursor `indexA` (R17). -/
  indexA : Cursor
  /-- Cursor `indexB` (R17). -/
  indexB : Cursor
  deriving DecidableEq, Repr

/-- What the host, or the reset line, does next. The host acts only between commands (R55, R137), and
running the command of a `CMD` write is one atomic transition (R23). -/
inductive HostAction where
  /-- Write `ARG0` (R20, R136). -/
  | writeArg0 (w : DWord)
  /-- Write `ARG1` (R20, R136). -/
  | writeArg1 (w : DWord)
  /-- Write `CMD`, which runs the command to completion (R23). -/
  | writeCmd (code : Byte)
  /-- The reset event, between commands (R131). -/
  | reset
  /-- Write `CMD`, and the reset event comes before that command completes (R132). -/
  | resetDuring (code : Byte)
  deriving DecidableEq, Repr

/-- The buffer space: address and byte pairs, addresses strictly rising (R31, R37). -/
abbrev Memory := List Host.Cell

/-- The whole machine. -/
structure State where
  /-- The generator state (R14). -/
  gen       : Gen
  /-- Operand register `ARG0` (R20). -/
  arg0      : DWord
  /-- Operand register `ARG1` (R20). -/
  arg1      : DWord
  /-- Result register `RES` (R21). -/
  res       : DWord
  /-- `STATUS.ERR` (R22). -/
  err       : ErrCode
  /-- The buffer space `BUF`: the sequence the latest `FILL_BYTES` produced (R37). -/
  buf       : Memory
  /-- MODEL'S OWN (log entry 1): what the host will do, next action first. -/
  host      : List HostAction
  /-- MODEL'S OWN (log entry 3): how many reset events have happened; it selects fresh free values. -/
  freeCount : Nat
  deriving DecidableEq, Repr

/-- Why a step stops the machine. -/
inductive Fault where
  /-- Raised by `NEXT_INT64`, `NEXT_INT64_RANGE` and `NEXT_SINGLE` when their rejection loop never finds an
  acceptable draw: the command never completes (R140, "stuck", U3). SAFE: the hardware is busy for ever and
  the host sees no result (log entry 5). -/
  | commandNeverCompletes
  deriving DecidableEq, Repr

/-- Why a step has no meaning. -/
inductive Refusal where
  /-- An instruction without a meaning yet, raised in `exec`'s arms only. SAFE. No arm uses it. -/
  | notModelled (mnemonic : String)
  deriving DecidableEq, Repr

/-- After reset (R29): unseeded, uninitialised, `ERR = OK`. The fields the spec leaves unspecified hold zero
(DESIGN CHOICE, log entry 2), the buffer has no byte (log entry 6), and no host action is waiting. -/
def State.reset : State where
  gen := { seeded := false, seed := 0, init := false, table := Vector.replicate 56 0, indexA := 0, indexB := 0 }
  arg0 := 0
  arg1 := 0
  res := 0
  err := .ok
  buf := []
  host := []
  freeCount := 0

end Sys2Proof.Machine
end

