-- ==== Sys2Proof/Machine/Ops.lean ====
section
/-! DEFINITION. The named operations of the machine: the buffer space, the table, raising an error (the whole of
exception entry on this hardware), completing a command, the rejection loop, the host's register writes and
the reset event. -/

namespace Sys2Proof.Machine

/-- The three outcomes of a step of this machine. -/
abbrev Result := Host.Outcome State Fault Refusal

/-! The buffer space (spec 20_memory.md R31, R37). A position that is not listed does not exist. -/

/-- The byte at a position, or `none` where the buffer has no such position (R37). -/
def Memory.read : Memory → Nat → Option Byte
  | [], _ => none
  | (b, v) :: m, a => if b = a then some v else Memory.read m a

/-- `MemWrite(a, 1, v)` (R12, R38). -/
def Memory.write : Memory → Nat → Byte → Memory
  | [], a, v => [(a, v)]
  | (b, w) :: m, a, v =>
    if a < b then (a, v) :: (b, w) :: m
    else if a = b then (a, v) :: m
    else (b, w) :: Memory.write m a v

/-- The canonical form: addresses strictly rising. No listed entry can equal what an unlisted position
reads as, because an unlisted position reads as no byte. -/
abbrev Memory.wf (m : Memory) : Prop := m.Pairwise (fun x y => x.1 < y.1)

/-! The table (R16, R32). Every index is a `Cursor`, so no access leaves `[0, 55]`. -/

/-- `T[i]`. -/
def readT (t : Table) (i : Cursor) : Word := t[i]

/-- `T[i] <- v`. -/
def writeT (t : Table) (i : Cursor) (v : Word) : Table := t.set i v

/-- `T[i]` of a generator. -/
def Gen.read (g : Gen) (i : Cursor) : Word := readT g.table i

/-! Errors and completion (spec 60_exceptions.md R116, R121, R122). -/

/-- `raise E` (R116): `STATUS.ERR` takes the code, nothing else changes, the command is complete. This is the
whole of exception entry: there is no vector, no saved program counter and no mode (R121). There is no return
either, and nothing to restore: the next command simply runs (R122). -/
def raise (e : ErrCode) (s : State) : Result := .next { s with err := e }

/-- A command that returns no value completes: `ERR` becomes `OK` (R116), `RES` keeps its value (R21). -/
def complete (s : State) : Result := .next { s with err := .ok }

/-- A command that returns a value completes: all 64 bits of `RES` are written, `ERR` becomes `OK` (R21, R51). -/
def completeWith (v : DWord) (s : State) : Result := .next { s with res := v, err := .ok }

/-! The rejection loops (spec 70_reset_and_hazards.md R140). -/

/-- `repeat draw until accept`, at most `fuel` iterations; `none` is R140's "no result". -/
def redraw {α : Type} (draw : Gen → α × Gen) (accept : α → Bool) : Nat → Gen → Option (α × Gen)
  | 0, _ => none
  | fuel + 1, g => if accept (draw g).1 then some (draw g) else redraw draw accept fuel (draw g).2

/-- 2^1840, more than the generator has states (1838 bits), so a loop that rejects this many draws in a row has
come back to a state it was in before and rejects for ever (log entry 5). It is no cap: the spec has none. -/
@[irreducible] def redrawBound : Nat := (2 ^ 230) ^ 8

/-- A command that is one rejection loop: it completes with the first accepted draw, and every rejected
draw stays spent; if no draw is ever accepted the command never completes (R140, U3). -/
def completeLoop {α : Type} (draw : Gen → α × Gen) (accept : α → Bool) (place : α → DWord) (s : State) : Result :=
  match redraw draw accept redrawBound s.gen with
  | some d => completeWith (place d.1) { s with gen := d.2 }
  | none   => .fault .commandNeverCompletes

/-! The host's side (R20, R136) and reset (R29, R131, R132). -/

/-- The host writes `ARG0`. -/
def hostWriteArg0 (w : DWord) (s : State) : Result := .next { s with arg0 := w }

/-- The host writes `ARG1`. -/
def hostWriteArg1 (w : DWord) (s : State) : Result := .next { s with arg1 := w }

/-- The state a reset event leaves: unseeded, uninitialised, `STATUS` zero, everything else that belongs to the
engine unspecified (free values); the buffer is not the engine's and is untouched (R29, R131). -/
def State.afterReset (s : State) : State :=
  { s with
    gen := { seeded := false, seed := (Config.resetValues s.freeCount).seed, init := false,
             table := (Config.resetValues s.freeCount).table,
             indexA := (Config.resetValues s.freeCount).indexA,
             indexB := (Config.resetValues s.freeCount).indexB }
    arg0 := (Config.resetValues s.freeCount).arg0
    arg1 := (Config.resetValues s.freeCount).arg1
    res := (Config.resetValues s.freeCount).res
    err := .ok
    freeCount := s.freeCount + 1 }

/-- The reset event between commands (R131). -/
def resetEvent (s : State) : Result := .next s.afterReset

/-- What the buffer may hold after a `FILL_BYTES len` was abandoned by the `n`-th reset event: any of the
positions below `len`, any bytes (R132, U12; log entry 4). -/
def abandonedBuf (n len : Nat) : Memory :=
  (List.range len).filterMap fun j => (Config.abandonedByte n j).map fun b => (j, b)

/-- The buffer after the command in progress was abandoned: only a `FILL_BYTES` on a seeded engine writes it
(R34, R115). -/
def State.abandonedBuffer (s : State) (code : Byte) : Memory :=
  match decode code s.arg0 s.arg1 with
  | .ok (.fillBytes len) => if s.gen.seeded then abandonedBuf s.freeCount len else s.buf
  | _                    => s.buf

/-- The reset event while the command `code` is in progress: the command is abandoned and the engine takes the
reset state; bytes already written stay written, which ones is unspecified (R132). -/
def resetEventDuring (code : Byte) (s : State) : Result :=
  .next { s.afterReset with buf := s.abandonedBuffer code }

end Sys2Proof.Machine
end

