-- ==== Sys2Proof/Machine/Seeding.lean ====
section
/-! DEFINITION. Seeding (spec 40_seed_table_init.md, `seed_table_init`): the command `SEED` and the procedure
`Initialize()` with its five steps. -/

namespace Sys2Proof.Machine

/-- The walk index of step 3 advanced once: `ii + 21`, less 55 when that reaches 55 (R64). -/
def walkNext (ii : Cursor) : Cursor :=
  ⟨if ii.val + STEP ≥ 55 then ii.val + STEP - 55 else ii.val + STEP, by unfold STEP; split <;> omega⟩

/-- Step 3 (R64): `n` walk steps from the index `ii` with the pair `mj`, `mk`. The index advances before the
store, and `(mj, mk)` steps to `(mk, fold(mj - mk))`. -/
def walk : Nat → Cursor → Word → Word → Table → Table
  | 0, _, _, _, t => t
  | n + 1, ii, mj, mk, t =>
    walk n (walkNext ii) mk (fold (sub32 mj mk)) (writeT t (walkNext ii) mk)

/-- The partner index `1 + n` of the mixing step at `i`, where `n = i + 30`, less 55 when that reaches 55
(R65). -/
def partner (i : Cursor) : Cursor :=
  ⟨1 + (if i.val + MIX_OFFSET ≥ 55 then i.val + MIX_OFFSET - 55 else i.val + MIX_OFFSET), by
    unfold MIX_OFFSET; split <;> omega⟩

/-- One mixing step, in place (R65, R42). -/
def mixStep (t : Table) (i : Cursor) : Table := writeT t i (fold (sub32 (readT t i) (readT t (partner i))))

/-- One mixing pass: `i` from 1 to 55, ascending (R65). -/
def mixPass (t : Table) : Table := ((List.finRange 56).tail).foldl mixStep t

/-- `n` mixing passes (R65). -/
def mixPasses : Nat → Table → Table
  | 0, t => t
  | n + 1, t => mixPasses n (mixPass t)

/-- Steps 1 and 2: the word that `seed` puts in `T[55]` (R62, R63). -/
def firstWord (seed : Word) : Word := sub32 MSEED (abs32 seed)

/-- Steps 1 to 4: what `Initialize()` makes of the table (R62 to R65). -/
def seedTable (seed : Word) (t : Table) : Table :=
  mixPasses MIX_PASSES (walk 54 0 (firstWord seed) 1#32 (writeT t 55 (firstWord seed)))

/-- `Initialize()` (R67): steps 1 to 5 in order, then `init <- 1`. -/
def initTable (g : Gen) : Gen :=
  { g with table := seedTable g.seed g.table, indexA := A0, indexB := B0, init := true }

/-- `SEED s` (R61): binds the seed and takes the value from table and cursors; it does not run
`Initialize()` (R18, R67). -/
def execSeed (v : Int) (s : State) : Result :=
  complete { s with gen := { s.gen with seed := wrap32 v, seeded := true, init := false } }

end Sys2Proof.Machine
end

