-- ==== Sys2Proof/Machine/RawSample.lean ====
section
/-! DEFINITION. The raw sample (spec 41_raw_sample.md: `index_rotate_mux`, `modular_subtract_and_fold`) and the
command `NEXT_RAW`. -/

namespace Sys2Proof.Machine

/-- `next(c)`, the cursor advance: 55 is followed by 1 (R72). -/
def nextCursor (c : Cursor) : Cursor :=
  ⟨if c.val + 1 ≥ 56 then 1 else c.val + 1, by split <;> omega⟩

/-- What `RawSample()` does to the difference: `MAX` is decremented, a negative value is folded (R75, R71). -/
def adjust (r : Word) : Word := if r = maxWord then r - 1#32 else fold r

/-- `RawSample()` once the table holds a value: both cursors advance, both words are read, the adjusted
difference is written back to `T[a]` and returned (R72, R73, R75). -/
def drawWord (g : Gen) : Word × Gen :=
  let a := nextCursor g.indexA
  let b := nextCursor g.indexB
  let r := adjust (sub32 (g.read a) (g.read b))
  (r, { g with table := writeT g.table a r, indexA := a, indexB := b })

/-- `RawSample()` (R75): the first one after `SEED` initialises the table (R18). -/
def rawSample (g : Gen) : Word × Gen := drawWord (if g.init then g else initTable g)

/-- `NEXT_RAW` (R76). -/
def execNextRaw (s : State) : Result :=
  if s.gen.seeded = false then raise .notSeeded s
  else completeWith (resultI32 (rawSample s.gen).1.toInt) { s with gen := (rawSample s.gen).2 }

end Sys2Proof.Machine
end

