-- ==== Sys2Proof/Machine/Sampling.lean ====
section
/-! DEFINITION. The unit sample, the bounded 32-bit integers and the large-range sample (spec
42_unit_and_bounded.md). -/

namespace Sys2Proof.Machine

/-- The unit sample of a raw value: one multiplication by `UNIT_SCALE`, never a division (R83). -/
def unitOf (r : Word) : F64 := mul64 (f64OfInt r.toInt) UNIT_SCALE

/-- `UnitSample()` (R83): one raw sample. -/
def unitSample (g : Gen) : F64 × Gen := (unitOf (rawSample g).1, (rawSample g).2)

/-- A sample scaled by a bound and truncated (R84, R86). -/
def scale (d : F64) (n : Int) : Int := truncInt (mul64 d (f64OfInt n))

/-- `BoundedDraw(m)` (R96), the arithmetic of `NEXT_MAX` (R84): one raw sample. -/
def boundedDraw (m : Int) (g : Gen) : Int × Gen := (scale (unitSample g).1 m, (unitSample g).2)

/-- The large-range sample of a magnitude and a sign draw: an even sign draw negates the magnitude, then
one exact addition and one division (R88). -/
def largeOf (m p : Word) : F64 :=
  div64 (add64 (f64OfInt (if p.toInt % 2 = 0 then -m.toInt else m.toInt)) (f64OfInt LARGE_BIAS)) (f64OfInt LARGE_DIV)

/-- `LargeSample()` (R88): two raw samples, magnitude first. -/
def largeSample (g : Gen) : F64 × Gen :=
  (largeOf (rawSample g).1 (rawSample (rawSample g).2).1, (rawSample (rawSample g).2).2)

/-- The sample of the two-bound form: one raw sample for a range up to `MAX`, else the large-range path (R85). -/
def rangeSample (range : Int) (g : Gen) : F64 × Gen := if range ≤ MAX then unitSample g else largeSample g

/-- `SAMPLE_UNIT` (R83). -/
def execSampleUnit (s : State) : Result :=
  if s.gen.seeded = false then raise .notSeeded s
  else completeWith (bits64 (unitSample s.gen).1) { s with gen := (unitSample s.gen).2 }

/-- `NEXT_MAX max` (R84). -/
def execNextMax (hi : Int) (s : State) : Result :=
  if s.gen.seeded = false then raise .notSeeded s
  else if hi < 0 then raise .invalidRange s
  else completeWith (resultI32 (boundedDraw hi s.gen).1) { s with gen := (boundedDraw hi s.gen).2 }

/-- `NEXT_RANGE min, max` (R86); the range and the final addition are exact (R85). -/
def execNextRange (lo hi : Int) (s : State) : Result :=
  if s.gen.seeded = false then raise .notSeeded s
  else if lo > hi then raise .invalidRange s
  else completeWith (resultI32 (scale (rangeSample (hi - lo) s.gen).1 (hi - lo) + lo))
    { s with gen := (rangeSample (hi - lo) s.gen).2 }

end Sys2Proof.Machine
end

