-- ==== Sys2Proof/Machine/Int64.lean ====
section
/-! DEFINITION. The 64-bit composition and the 64-bit commands (spec 43_int64.md). -/

namespace Sys2Proof.Machine

/-- The three pieces put together: first draw low, third draw high (R96). -/
def compose64 (p0 p1 p2 : Int) : DWord :=
  wrap64 p0 ||| (wrap64 p1 <<< U64_W0) ||| (wrap64 p2 <<< (U64_W0 + U64_W1))

/-- `UInt64Draw()` (R96): three bounded draws of 22, 22 and 20 bits. -/
def uint64Draw (g : Gen) : DWord × Gen :=
  let p0 := boundedDraw (2 ^ U64_W0) g
  let p1 := boundedDraw (2 ^ U64_W1) p0.2
  let p2 := boundedDraw (2 ^ U64_W2) p1.2
  (compose64 p0.1 p1.1 p2.1, p2.2)

/-- The draw of both 64-bit commands: the composition shifted right, logically (R97, R98). -/
def shiftedDraw (shift : Nat) (g : Gen) : DWord × Gen := ((uint64Draw g).1 >>> shift, (uint64Draw g).2)

/-- `NEXT_INT64` accepts every value but `i64::MAX` (R97). -/
def acceptInt64 (r : DWord) : Bool := r != 0x7FFFFFFFFFFFFFFF#64

/-- `NEXT_INT64_RANGE` accepts a value below the exclusive range, unsigned (R98). -/
def acceptBelow (ex : Nat) (r : DWord) : Bool := decide (r.toNat < ex)

/-- `exclusiveRange` (R98). -/
def exclusiveRange (lo hi : Int) : Nat := umod64 (hi - lo)

/-- `NEXT_INT64` (R97). -/
def execNextInt64 (s : State) : Result :=
  if s.gen.seeded = false then raise .notSeeded s
  else completeLoop (shiftedDraw 1) acceptInt64 id s

/-- `NEXT_INT64_RANGE min, max` (R98); an exclusive range of 0 or 1 draws nothing. -/
def execNextInt64Range (lo hi : Int) (s : State) : Result :=
  if s.gen.seeded = false then raise .notSeeded s
  else if lo > hi then raise .invalidRange s
  else if exclusiveRange lo hi > 1 then
    completeLoop (shiftedDraw (64 - ceilLog2 (exclusiveRange lo hi))) (acceptBelow (exclusiveRange lo hi))
      (fun r => r + wrap64 lo) s
  else completeWith (wrap64 lo) s

end Sys2Proof.Machine
end

