-- ==== Sys2Proof/Machine/SingleBytes.lean ====
section
/-! DEFINITION. The single-precision sample and the byte fill (spec 44_single_and_bytes.md). -/

namespace Sys2Proof.Machine

/-- One iteration of `NEXT_SINGLE`: the unit sample, narrowed (R106). -/
def singleDraw (g : Gen) : F32 × Gen := (f32OfF64 (unitSample g).1, (unitSample g).2)

/-- `NEXT_SINGLE` rejects exactly 1.0 (R106). -/
def acceptSingle (f : F32) : Bool := f != F32.one

/-- `NEXT_SINGLE` (R106). -/
def execNextSingle (s : State) : Result :=
  if s.gen.seeded = false then raise .notSeeded s
  else completeLoop singleDraw acceptSingle (fun f => resultF32 (bits32f f)) s

/-- The byte taken from a raw sample: its low 8 bits (R108). -/
def lowByte (r : Word) : Byte := r.extractLsb' 0 8

/-- `n` positions of the byte fill, from position `j` up: one raw sample and one `MemWrite` each (R109). -/
def fill : Nat → Nat → Gen → Memory → Gen × Memory
  | 0, _, g, m => (g, m)
  | n + 1, j, g, m => fill n (j + 1) (rawSample g).2 (m.write j (lowByte (rawSample g).1))

/-- `FILL_BYTES len` (R109). The buffer of a `FILL_BYTES` is the sequence of its own `len` positions, so it
starts with no byte (R37; log entry 6). -/
def execFillBytes (len : Nat) (s : State) : Result :=
  if s.gen.seeded = false then raise .notSeeded s
  else complete { s with gen := (fill len 0 s.gen []).1, buf := (fill len 0 s.gen []).2 }

end Sys2Proof.Machine
end

