-- ==== Sys2Proof/Machine/Dispatch.lean ====
section
/-! DEFINITION. One arm per command (spec 30_encoding.md R52): a direct call of its meaning. -/

namespace Sys2Proof.Machine

def exec (i : Instr) (s : State) : Host.Outcome State Fault Refusal :=
  match i with
  | .seed v => Sys2Proof.Machine.execSeed v s
  | .nextRaw => Sys2Proof.Machine.execNextRaw s
  | .sampleUnit => Sys2Proof.Machine.execSampleUnit s
  | .nextMax hi => Sys2Proof.Machine.execNextMax hi s
  | .nextRange lo hi => Sys2Proof.Machine.execNextRange lo hi s
  | .nextInt64 => Sys2Proof.Machine.execNextInt64 s
  | .nextInt64Range lo hi => Sys2Proof.Machine.execNextInt64Range lo hi s
  | .nextSingle => Sys2Proof.Machine.execNextSingle s
  | .fillBytes len => Sys2Proof.Machine.execFillBytes len s

end Sys2Proof.Machine
end

