-- ==== Sys2Proof/Machine/Flags.lean ====
section
/-! DEFINITION. The status register, the only flags of the hardware (spec 10_state.md R22, 60_exceptions.md
R117), and what the host reads (R21, R38). No command sets any other flag. -/

namespace Sys2Proof.Machine

/-- The 3-bit code of an outcome (R117). -/
def ErrCode.code : ErrCode → BitVec 3
  | .ok           => 0#3
  | .invalidRange => 1#3
  | .notSeeded    => 2#3
  | .illegalCmd   => 3#3

/-- The byte `STATUS`: bits 7:4 read as zero, bits 3:1 are `ERR`, bit 0 is `SEEDED` (R22). -/
def statusByte (seeded : Bool) (err : ErrCode) : Byte := 0#4 ++ err.code ++ BitVec.ofBool seeded

/-- What the host reads from `STATUS`. `SEEDED` is a copy of `seeded` (R22). -/
def State.status (s : State) : Byte := statusByte s.gen.seeded s.err

end Sys2Proof.Machine
end

