-- ==== Sys2Proof/Machine/Step.lean ====
section
/-! DEFINITION. One step: the next action of the host, run to its end (spec 30_encoding.md R55, 10_state.md R23). -/

namespace Sys2Proof.Machine

/-- The host writes the byte `code` to `CMD`: the decoder reads the operands from `ARG0` and `ARG1` as they
are now (R46, R136), and the command runs; an illegal code raises `IllegalCmd` before anything else (R53, R114). -/
def runCommand (code : Byte) (s : State) : Host.Outcome State Fault Refusal :=
  match decode code s.arg0 s.arg1 with
  | .ok i    => exec i s
  | .error _ => raise .illegalCmd s

/-- One action of the host. -/
def act (a : HostAction) (s : State) : Host.Outcome State Fault Refusal :=
  match a with
  | .writeArg0 w      => hostWriteArg0 w s
  | .writeArg1 w      => hostWriteArg1 w s
  | .writeCmd code    => runCommand code s
  | .reset            => resetEvent s
  | .resetDuring code => resetEventDuring code s

/-- One step: the host's next action. With none waiting the engine is idle and holds its state (R129, R131). -/
def step (s : State) : Host.Outcome State Fault Refusal :=
  match s.host with
  | []        => .next s
  | a :: rest => act a { s with host := rest }

/-- The registers and the host's next action set so that the very next step runs the command of a row's word:
the operand registers as the row lays them out, and a write of its code to `CMD` (log entry 1). -/
def State.withFetchWord (s : State) (nbits w : Nat) : State :=
  { s with
    arg0 := tableArg0 nbits w
    arg1 := tableArg1 nbits w
    host := .writeCmd (tableCmd nbits w) :: s.host }

/-- What the assembler's line for a command makes the host do (R55, R56): the operand writes, then `CMD`. -/
def hostActions (i : Instr) : List HostAction :=
  ((encode i).arg0.map HostAction.writeArg0).toList ++ ((encode i).arg1.map HostAction.writeArg1).toList
    ++ [.writeCmd (encode i).cmd]

end Sys2Proof.Machine
end

