-- ==== Sys2Proof/Safety.lean ====
section
/-! DEFINITION. The words the statements are said with: sequences of draws, the lagged sequence, the invariants of
the machine, and when two states have the same future. -/

namespace Sys2Proof.Machine

/-! Draws in a row. -/

/-- The generator after `n` draws of one kind. -/
def afterDraws {α : Type} (draw : Gen → α × Gen) : Nat → Gen → Gen
  | 0, g => g
  | n + 1, g => afterDraws draw n (draw g).2

/-- The value of the draw that comes after `n` draws of the same kind. -/
def nthDraw {α : Type} (draw : Gen → α × Gen) (n : Nat) (g : Gen) : α := (draw (afterDraws draw n g)).1

/-- The draw number `n`, counted from 0, is the first one accepted. -/
def FirstAccepted {α : Type} (draw : Gen → α × Gen) (accept : α → Bool) (n : Nat) (g : Gen) : Prop :=
  accept (nthDraw draw n g) = true ∧ ∀ k, k < n → accept (nthDraw draw k g) = false

/-- The word of the walk stored at iteration `i` (spec 40_seed_table_init.md R64): 1, then the pair
`(mj, mk)` steps to `(mk, fold(mj - mk))`. -/
def walkWord (mj : Word) : Nat → Word
  | 0 => mj
  | 1 => 1#32
  | n + 2 => fold (sub32 (walkWord mj n) (walkWord mj (n + 1)))

/-- The sequence of spec 41_raw_sample.md R78 shifted to start at 0: entry `j` is `T[j]` for `j` in `[1, 55]`,
and entry `55 + n` is the `n`-th raw sample, `n >= 1`. -/
def lagged (g : Gen) (m : Nat) : Word :=
  if h : m < 56 then g.read ⟨m, h⟩ else nthDraw rawSample (m - 56) g

/-- `adjust(d)` of R78, on the exact difference. -/
def adjustInt (d : Int) : Int := if d < 0 then d + MAX else if d = MAX then d - 1 else d

/-! What every step keeps. -/

/-- A table word lies in `[0, MAX)` (spec 10_state.md R24). -/
def InRange (v : Word) : Prop := 0 ≤ v.toInt ∧ v.toInt < MAX

/-- All live words lie in `[0, MAX)` whenever the table holds a value (R24). -/
def Gen.TableInRange (g : Gen) : Prop := g.init = true → ∀ i : Cursor, i ≠ 0 → InRange (g.read i)

/-- Whenever the cursors hold a value, `indexB` is not 0 and is 21 ahead of `indexA` round the ring of 55 live
words (R17, R25). -/
def Gen.CursorsApart (g : Gen) : Prop :=
  g.init = true → g.indexB ≠ 0 ∧ (g.indexB.val + 55 - g.indexA.val) % 55 = 21

/-- The table holds a value only once a seed has been bound (R18, R29). -/
def Gen.InitNeedsSeed (g : Gen) : Prop := g.init = true → g.seeded = true

/-- The buffer is in canonical form, and its positions are below the largest length a command can have (R37,
R50). -/
def State.BufferOk (s : State) : Prop := Memory.wf s.buf ∧ ∀ c ∈ s.buf, c.1 < 2 ^ 32 - 1

/-- The structural invariant of the machine. -/
structure State.Inv (s : State) : Prop where
  buffer  : s.BufferOk
  cursors : s.gen.CursorsApart
  seeded  : s.gen.InitNeedsSeed

/-! Two states with the same future. -/

/-- Two generators that no command can tell apart: what is read agrees, and what is not read (the seed while
unseeded, the table and cursors while uninitialised, `T[0]`) may differ (spec 10_state.md R29, R33). -/
structure Gen.SameFuture (g h : Gen) : Prop where
  seeded : g.seeded = h.seeded
  init   : g.init = h.init
  seed   : g.seeded = true → g.seed = h.seed
  table  : g.init = true → ∀ i : Cursor, i ≠ 0 → g.read i = h.read i
  indexA : g.init = true → g.indexA = h.indexA
  indexB : g.init = true → g.indexB = h.indexB

/-- Two states that no host can tell apart from now on. -/
structure State.SameFuture (s t : State) : Prop where
  gen       : s.gen.SameFuture t.gen
  arg0      : s.arg0 = t.arg0
  arg1      : s.arg1 = t.arg1
  res       : s.res = t.res
  err       : s.err = t.err
  buf       : s.buf = t.buf
  host      : s.host = t.host
  freeCount : s.freeCount = t.freeCount

/-- Two outcomes that no host can tell apart. -/
def SameOutcome : Result → Result → Prop
  | .next s, .next t       => s.SameFuture t
  | .fault a, .fault b     => a = b
  | .refused a, .refused b => a = b
  | _, _                   => False

/-- `k` steps, stopping at the first fault or refusal. -/
def steps : Nat → State → Result
  | 0, s => .next s
  | k + 1, s =>
    match step s with
    | .next t    => steps k t
    | .fault r   => .fault r
    | .refused r => .refused r

end Sys2Proof.Machine
end

