-- ==== Sys2Proof/Certificates/Slice0/Obligations.lean ====
section
/-! DEFINITION. The statements about the engine, for the provers. Each docstring says which rule of the spec it
formalises. -/

open Sys2Proof Sys2Proof.Machine

/-! ## Commands as words -/

/-- The decoder undoes the assembler: for every well-formed command, whatever the two operand registers held
before its line was written (30_encoding.md R52, R56). -/
def Obligations.DecodeUndoesEncode : Prop :=
  ∀ (i : Instr) (a0 a1 : DWord), i.wf = true →
    decode (encode i).cmd ((encode i).arg0.getD a0) ((encode i).arg1.getD a1) = .ok i

/-- What the decoder answers is a well-formed command, and the assembler gives that command the same code. -/
def Obligations.DecodedCommandsAreWellFormed : Prop :=
  ∀ (c : Byte) (a0 a1 : DWord) (i : Instr), decode c a0 a1 = .ok i → i.wf = true ∧ (encode i).cmd = c

/-- Operand assembly (R48, R49, R50): a 32-bit operand is the low half of its register as two's complement, a
64-bit one the whole register, a length the low half unsigned; `min` comes from `ARG0`, `max` from `ARG1`. -/
def Obligations.OperandsAreReadAsTheFormatsSay : Prop :=
  ∀ a0 a1 : DWord,
    (∃ v : Int, decode 0x01#8 a0 a1 = .ok (.seed v) ∧ decode 0x04#8 a0 a1 = .ok (.nextMax v) ∧
      -2 ^ 31 ≤ v ∧ v < 2 ^ 31 ∧ v % 2 ^ 32 = (a0.toNat : Int) % 2 ^ 32) ∧
    (∃ v w : Int, decode 0x05#8 a0 a1 = .ok (.nextRange v w) ∧
      -2 ^ 31 ≤ v ∧ v < 2 ^ 31 ∧ v % 2 ^ 32 = (a0.toNat : Int) % 2 ^ 32 ∧
      -2 ^ 31 ≤ w ∧ w < 2 ^ 31 ∧ w % 2 ^ 32 = (a1.toNat : Int) % 2 ^ 32) ∧
    (∃ v w : Int, decode 0x07#8 a0 a1 = .ok (.nextInt64Range v w) ∧
      -2 ^ 63 ≤ v ∧ v < 2 ^ 63 ∧ v % 2 ^ 64 = (a0.toNat : Int) ∧
      -2 ^ 63 ≤ w ∧ w < 2 ^ 63 ∧ w % 2 ^ 64 = (a1.toNat : Int)) ∧
    decode 0x09#8 a0 a1 = .ok (.fillBytes (a0.toNat % 2 ^ 32))

/-- Operand bits that do not matter (R54): the upper half of a register that a 32-bit format reads, and all of
a register that the format does not use. -/
def Obligations.UnusedOperandBitsAreIgnored : Prop :=
  ∀ (c : Byte) (a0 a1 b0 b1 : DWord),
    (c ∈ [0x02#8, 0x03#8, 0x06#8, 0x08#8] → decode c a0 a1 = decode c b0 b1) ∧
    (c ∈ [0x01#8, 0x04#8, 0x09#8] → a0.toNat % 2 ^ 32 = b0.toNat % 2 ^ 32 → decode c a0 a1 = decode c b0 b1) ∧
    (c = 0x05#8 → a0.toNat % 2 ^ 32 = b0.toNat % 2 ^ 32 → a1.toNat % 2 ^ 32 = b1.toNat % 2 ^ 32 →
      decode c a0 a1 = decode c b0 b1)

/-- The nine codes of the opcode map, and words of V9.2, decode to the commands they stand for (R52). That an 8-bit row
of the table leaves both operand registers zero, so that the operands read from it are 0, is the model's choice (log
entry 15). -/
def Obligations.OpcodeMapWordsDecode : Prop :=
  [1, 2, 3, 4, 5, 6, 7, 8, 9].map (decodeTableWord 8) =
    [some (.seed 0), some .nextRaw, some .sampleUnit, some (.nextMax 0), some (.nextRange 0 0), some .nextInt64,
     some (.nextInt64Range 0 0), some .nextSingle, some (.fillBytes 0)] ∧
  decode 0x04#8 0xDEADBEEF00000064#64 0#64 = .ok (.nextMax 100) ∧
  decode 0x05#8 0x00000000FFFFFFCE#64 0xFFFFFFFF00000032#64 = .ok (.nextRange (-50) 50) ∧
  decode 0x07#8 0x00000000FFFFFFCE#64 0x0000000000000032#64 = .ok (.nextInt64Range 4294967246 50)

/-! ## Steps, the host's side, reset -/

/-- A step runs the decoded command: when the host's next action writes `c` to `CMD` and `c` decodes, with the
operand registers as they are, to `i`, the step is `exec i` once that action is taken (R46, R55). That the host's
actions are a list in the state is the model's choice (log entry 1). -/
def Obligations.StepRunsTheDecodedCommand : Prop :=
  ∀ (s : State) (c : Byte) (rest : List HostAction) (i : Instr),
    s.host = .writeCmd c :: rest → decode c s.arg0 s.arg1 = .ok i → step s = exec i { s with host := rest }

/-- Illegal codes (R53, R114): 0x00 and 0x0A to 0xFF end at once with `ERR = ILLEGAL_CMD` and change nothing
else, whatever is seeded and whatever the operand registers hold. -/
def Obligations.IllegalCodeChangesOnlyErr : Prop :=
  ∀ (s : State) (c : Byte) (rest : List HostAction),
    s.host = .writeCmd c :: rest → c.toNat = 0 ∨ 10 ≤ c.toNat →
      step s = .next { s with host := rest, err := .illegalCmd } ∧
      (State.status { s with host := rest, err := .illegalCmd }).toNat = if s.gen.seeded then 7 else 6

/-- The host's operand writes change the one register, and an engine that is asked nothing holds its state
(R20, R129); that asking nothing is a step of its own is the model's choice (log entry 11). -/
def Obligations.HostWritesAndIdle : Prop :=
  ∀ (s : State) (w : DWord) (rest : List HostAction),
    (s.host = .writeArg0 w :: rest → step s = .next { s with host := rest, arg0 := w }) ∧
    (s.host = .writeArg1 w :: rest → step s = .next { s with host := rest, arg1 := w }) ∧
    (s.host = [] → step s = .next s)

/-- The command protocol (R55, R56): when the host does what the assembler's line for a well-formed command says, one
step for each write, the command runs on the registers the line leaves. -/
def Obligations.AssembledLineRunsItsCommand : Prop :=
  ∀ (i : Instr) (s : State) (rest : List HostAction), i.wf = true → s.host = hostActions i ++ rest →
    Host.Core.run Sys2Proof.core (hostActions i).length s =
      exec i { s with host := rest, arg0 := (encode i).arg0.getD s.arg0, arg1 := (encode i).arg1.getD s.arg1 }

/-- Reset (R131, R29): the machine right after reset, and every later reset event, is unseeded and uninitialised
with `STATUS = 0x00`; the event leaves the buffer alone. What else it leaves is free (log entry 3).
That the host's coming actions stay in the list, `t.host = rest`, is the model's choice: the spec is silent on them (log
entry 16). -/
def Obligations.ResetLeavesTheEngineUnseeded : Prop :=
  (State.reset.gen.seeded = false ∧ State.reset.gen.init = false ∧ State.reset.status = 0x00#8) ∧
  ∀ (s : State) (rest : List HostAction), s.host = .reset :: rest →
    ∃ t, step s = .next t ∧ t.gen.seeded = false ∧ t.gen.init = false ∧ t.status = 0x00#8 ∧
      t.buf = s.buf ∧ t.host = rest

/-- Reset during a command (R132): the command is abandoned, whichever it is and whether or not it would ever
complete, and the engine is unseeded. The buffer is kept unless the command was a `FILL_BYTES` of a seeded engine; in
that case it is in canonical form and has no byte at or beyond the length, whatever an earlier fill had left there: the
model's choice, as is leaving the bytes below the length free (log entries 4 and 6). That the host's coming actions stay
in the list, `t.host = rest`, is the model's choice too (log entry 16). -/
def Obligations.ResetDuringACommandAbandonsIt : Prop :=
  ∀ (s : State) (c : Byte) (rest : List HostAction), s.host = .resetDuring c :: rest →
    ∃ t, step s = .next t ∧ t.gen.seeded = false ∧ t.gen.init = false ∧ t.status = 0x00#8 ∧ t.host = rest ∧
      (∀ len, decode c s.arg0 s.arg1 = .ok (.fillBytes len) → s.gen.seeded = true →
        Memory.wf t.buf ∧ ∀ j, len ≤ j → Memory.read t.buf j = none) ∧
      ((s.gen.seeded = false ∨ ∀ len, decode c s.arg0 s.arg1 ≠ .ok (.fillBytes len)) → t.buf = s.buf)

/-! ## STATUS and the errors -/

/-- The layout of `STATUS` (R22): bit 0 is `seeded`, bits 3:1 the code 0 to 3 of the outcome, bits 7:4 zero. -/
def Obligations.StatusByteLayout : Prop :=
  ∀ s : State,
    s.status.toNat = (if s.gen.seeded then 1 else 0) +
      2 * (match s.err with | .ok => 0 | .invalidRange => 1 | .notSeeded => 2 | .illegalCmd => 3) ∧
    s.status.extractLsb' 4 4 = 0#4

/-- `NotSeeded` (R115): before the first `SEED` every other command ends with `ERR = NOT_SEEDED`, whatever its
operands, and changes nothing else. -/
def Obligations.UnseededEngineRefusesAllButSeed : Prop :=
  ∀ (i : Instr) (s : State), s.gen.seeded = false → (∀ v, i ≠ .seed v) →
    exec i s = .next { s with err := .notSeeded }

/-- `InvalidRange` (R113): raised on a seeded engine by exactly three conditions on the operands, and then nothing but
`ERR` changes. -/
def Obligations.InvalidRangeByExactlyThreeConditions : Prop :=
  ∀ (i : Instr) (s : State), s.gen.seeded = true →
    (((∃ hi, i = .nextMax hi ∧ hi < 0) ∨ (∃ lo hi, i = .nextRange lo hi ∧ hi < lo) ∨
        (∃ lo hi, i = .nextInt64Range lo hi ∧ hi < lo)) →
      exec i s = .next { s with err := .invalidRange }) ∧
    (∀ t, exec i s = .next t → t.err = .invalidRange →
      (∃ hi, i = .nextMax hi ∧ hi < 0) ∨ (∃ lo hi, i = .nextRange lo hi ∧ hi < lo) ∨
        (∃ lo hi, i = .nextInt64Range lo hi ∧ hi < lo))

/-- What `raise` does (R116): a command that does not end with `OK` has changed `STATUS.ERR` and nothing else. -/
def Obligations.ErrorsChangeNothingElse : Prop :=
  ∀ (i : Instr) (s t : State), exec i s = .next t → t.err ≠ .ok →
    t = { s with err := t.err } ∧ (t.err = .invalidRange ∨ t.err = .notSeeded)

/-! ## Seeding -/

/-- `SEED s` (R61): completes for every `i32`, seeded or not; it binds the seed, clears `init`, ends with `STATUS` 0x01,
and leaves `RES`, the operand registers and the buffer alone. The table and the cursors keep what they held, by R34
(log entry 9). -/
def Obligations.SeedBindsTheSeed : Prop :=
  ∀ (v : Int) (s : State), (Instr.seed v).wf = true →
    ∃ t, exec (.seed v) s = .next t ∧
      t = { s with gen := { s.gen with seed := t.gen.seed, seeded := true, init := false }, err := .ok } ∧
      t.gen.seed.toInt = v ∧ t.status = 0x01#8

/-- Re-seeding as re-boot (R134): after `SEED s`, on any two engines whose host registers, buffer and host agree, every
run of any length has the same outcome to the host, whatever the engines held before. `freeCount` is the model's own
field (log entry 3). -/
def Obligations.SeedForgetsThePast : Prop :=
  ∀ (v : Int) (s t s' t' : State) (n : Nat),
    s.arg0 = t.arg0 → s.arg1 = t.arg1 → s.res = t.res → s.buf = t.buf → s.host = t.host → s.freeCount = t.freeCount →
    exec (.seed v) s = .next s' → exec (.seed v) t = .next t' →
      SameOutcome (steps n s') (steps n t')

/-- Step 1 (R62): the magnitude of the seed, `MIN` special-cased to `MAX`; only the magnitude matters to the table. -/
def Obligations.OnlyTheMagnitudeOfTheSeedMatters : Prop :=
  (∀ v : Word, (abs32 v).toInt =
    if v.toInt = -2147483648 then MAX else if v.toInt < 0 then -v.toInt else v.toInt) ∧
  ∀ (g : Gen) (v w : Word), (abs32 v).toInt = (abs32 w).toInt →
    (initTable { g with seed := v }).table = (initTable { g with seed := w }).table

/-- Step 2 (R63): the first word never wraps, is negative exactly when the magnitude is above 161803398, and stands in
`T[55]` when the mixing passes begin. -/
def Obligations.FirstWordIsExact : Prop :=
  ∀ (t : Table) (v : Word), (firstWord v).toInt = 161803398 - (abs32 v).toInt ∧
    -1985680249 ≤ (firstWord v).toInt ∧ (firstWord v).toInt ≤ 161803398 ∧
    ((firstWord v).toInt < 0 ↔ 161803398 < (abs32 v).toInt) ∧
    readT (walk 54 0 (firstWord v) 1#32 (writeT t 55 (firstWord v))) 55 = firstWord v

/-- Step 3 (R64): iteration `i` stores the word number `i` of the two-term recurrence at index `21 * i mod 55`; no
subtraction wraps and every stored word lies in `[0, MAX)`; words 0 and 55 are not touched. -/
def Obligations.WalkStoresTheRecurrence : Prop :=
  ∀ (t : Table) (v : Word),
    (∀ i, 1 ≤ i → i ≤ 54 →
      readT (walk 54 0 (firstWord v) 1#32 t) (Fin.ofNat 56 (21 * i % 55)) = walkWord (firstWord v) i ∧
      InRange (walkWord (firstWord v) i) ∧
      (sub32 (walkWord (firstWord v) (i - 1)) (walkWord (firstWord v) i)).toInt =
        (walkWord (firstWord v) (i - 1)).toInt - (walkWord (firstWord v) i).toInt) ∧
    readT (walk 54 0 (firstWord v) 1#32 t) 0 = readT t 0 ∧ readT (walk 54 0 (firstWord v) 1#32 t) 55 = readT t 55

/-- Step 4 (R65): a mixing pass works in place and in ascending order, so the partner of `i` is still the old word for
`i` up to 24 and already the new one from 25 on; the table is left by four passes. -/
def Obligations.MixingPassIsInPlace : Prop :=
  (∀ (t : Table) (i : Cursor), i ≠ 0 →
    readT (mixPass t) i = fold (sub32 (readT t i)
      (if i.val ≤ 24 then readT t (Fin.ofNat 56 (i.val + 31)) else readT (mixPass t) (Fin.ofNat 56 (i.val - 24))))) ∧
  ∀ g : Gen, (initTable g).table =
    mixPass (mixPass (mixPass (mixPass (walk 54 0 (firstWord g.seed) 1#32 (writeT g.table 55 (firstWord g.seed))))))

/-- Step 5 and the frame of `Initialize()` (R66, R67, R33): the cursors become 0 and 21, so the first raw sample
reads words 1 and 22; `init` becomes 1; the seed and word 0 of the table are not written. -/
def Obligations.InitializeSetsCursorsAndFlag : Prop :=
  ∀ g : Gen, (initTable g).indexA = 0 ∧ (initTable g).indexB = 21 ∧
    nextCursor (initTable g).indexA = 1 ∧ nextCursor (initTable g).indexB = 22 ∧ (initTable g).init = true ∧
    (initTable g).seed = g.seed ∧ (initTable g).seeded = g.seeded ∧ (initTable g).read 0 = g.read 0

/-- Seeds of magnitude up to 161803398 (R69 (b)): `Initialize()` leaves every live word in `[0, MAX)`. -/
def Obligations.SmallSeedsInitialiseInRange : Prop :=
  ∀ g : Gen, (abs32 g.seed).toInt ≤ 161803398 → (initTable g).TableInRange

/-- Table range (R24): for every seed, `Initialize()` leaves every live word in `[0, MAX)`, although words outside it
occur on the way for most seeds; and `RawSample()` preserves that range. -/
def Obligations.EverySeedInitialisesInRange : Prop :=
  (∀ g : Gen, (initTable g).TableInRange) ∧
  ∀ g : Gen, g.init = true → g.TableInRange → (rawSample g).2.TableInRange

/-! ## The raw sample -/

/-- The subtraction and the fold (R70, R71): `sub32` is the exact difference modulo 2^32, `fold` adds `MAX` once to a
negative value and nothing to any other. -/
def Obligations.SubtractionWrapsAndFoldAddsMaxOnce : Prop :=
  (∀ a b : Word, -2147483648 ≤ (sub32 a b).toInt ∧ (sub32 a b).toInt ≤ 2147483647 ∧
    ((sub32 a b).toInt - (a.toInt - b.toInt)) % 4294967296 = 0) ∧
  ∀ v : Word, (fold v).toInt = if v.toInt < 0 then v.toInt + MAX else v.toInt

/-- Cursor positions (R25): they start at 0 and 21, and after `n >= 1` raw samples they are functions of `n` alone, 21
apart round the ring of 55 live words, never equal. -/
def Obligations.CursorsAfterDraws : Prop :=
  (∀ g : Gen, (initTable g).indexA.val = 0 ∧ (initTable g).indexB.val = 21) ∧
  ∀ (g : Gen) (n : Nat), g.init = false → 1 ≤ n →
    (afterDraws rawSample n g).indexA.val = (n - 1) % 55 + 1 ∧
    (afterDraws rawSample n g).indexB.val = (n + 20) % 55 + 1 ∧
    ((afterDraws rawSample n g).indexB.val + 55 - (afterDraws rawSample n g).indexA.val) % 55 = 21 ∧
    (afterDraws rawSample n g).indexA ≠ (afterDraws rawSample n g).indexB

/-- `RawSample()` (R75): the first one after `SEED` initialises the table; each advances both cursors, adjusts the
wrapped difference of the two words under the advanced cursors, and writes it to `T[a]` and nowhere else. -/
def Obligations.RawSampleIsTheAdjustedDifference : Prop :=
  (∀ g : Gen, g.init = false → rawSample g = rawSample (initTable g)) ∧
  ∀ (g : Gen) (a b : Cursor) (d : Int), g.init = true →
    a.val = (if g.indexA.val + 1 ≥ 56 then 1 else g.indexA.val + 1) →
    b.val = (if g.indexB.val + 1 ≥ 56 then 1 else g.indexB.val + 1) →
    d = (sub32 (g.read a) (g.read b)).toInt →
      (rawSample g).1.toInt = (if d = MAX then MAX - 1 else if d < 0 then d + MAX else d) ∧
      (rawSample g).2.read a = (rawSample g).1 ∧ (∀ i, i ≠ a → (rawSample g).2.read i = g.read i) ∧
      (rawSample g).2.indexA = a ∧ (rawSample g).2.indexB = b ∧ (rawSample g).2.init = true ∧
      (rawSample g).2.seed = g.seed ∧ (rawSample g).2.seeded = g.seeded

/-- Range preservation (R77): from live words in `[0, MAX)` the subtraction does not wrap, the `MAX` branch is not
taken, and the sample lies in `[0, MAX)`; from any table at all it lies in `[-1, MAX)`. -/
def Obligations.RawSampleStaysInRange : Prop :=
  ∀ g : Gen, g.init = true →
    (-1 ≤ (rawSample g).1.toInt ∧ (rawSample g).1.toInt < MAX) ∧
    (g.TableInRange →
      (sub32 (g.read (nextCursor g.indexA)) (g.read (nextCursor g.indexB))).toInt =
        (g.read (nextCursor g.indexA)).toInt - (g.read (nextCursor g.indexB)).toInt ∧
      sub32 (g.read (nextCursor g.indexA)) (g.read (nextCursor g.indexB)) ≠ maxWord ∧
      InRange (rawSample g).1 ∧ (rawSample g).2.TableInRange)

/-- The recurrence (R78): with the cursors where seeding puts them and live words in `[0, MAX)`, each raw sample is the
adjusted exact difference of the terms 55 and 34 places back. -/
def Obligations.LaggedFibonacciRecurrence : Prop :=
  ∀ (g : Gen) (n : Nat), g.init = true → g.indexA = 0 → g.indexB = 21 → g.TableInRange → 1 ≤ n →
    (lagged g (n + 55)).toInt = adjustInt ((lagged g n).toInt - (lagged g (n + 21)).toInt)

/-- `NEXT_RAW` (R76): without a seed it raises `NotSeeded`; on a seeded engine it completes with the next raw sample,
sign-extended, in `RES`, and has spent exactly one draw. -/
def Obligations.NextRawReturnsTheSample : Prop :=
  ∀ s : State,
    (s.gen.seeded = false → exec .nextRaw s = .next { s with err := .notSeeded }) ∧
    (s.gen.seeded = true →
      ∃ t, exec .nextRaw s = .next t ∧ t = { s with gen := (rawSample s.gen).2, res := t.res, err := .ok } ∧
        t.res.toInt = (rawSample s.gen).1.toInt ∧
        (InRange (rawSample s.gen).1 → t.res.toNat < 2 ^ 31 - 1))

/-! ## Floating point, the unit sample, bounded 32-bit integers -/

/-- Correct rounding (R11, R80): the result has at most `p` significant bits, no number with `p` significant bits is
nearer to `a / b`, and a tie goes to the even last place. -/
def Obligations.RoundingIsToNearestEven : Prop :=
  ∀ p a b : Nat, 1 ≤ p → 1 ≤ b →
    (∃ m k, roundSig p a b = m * 2 ^ k ∧ m < 2 ^ p) ∧
    (∀ m k : Nat, m < 2 ^ p →
      |(roundSig p a b : Int) * b - a| ≤ |((m * 2 ^ k : Nat) : Int) * b - a|) ∧
    (2 * |(roundSig p a b : Int) * b - a| = (b * 2 ^ ulpExp p a b : Nat) →
      roundSig p a b / 2 ^ ulpExp p a b % 2 = 0)

/-- `UNIT_SCALE` (R82): its bit pattern, and its exact value `2^-31 + 2^-62`. -/
def Obligations.UnitScaleValue : Prop :=
  bits64 UNIT_SCALE = 0x3E00000000200000#64 ∧ UNIT_SCALE.neg = false ∧
    UNIT_SCALE.mag * 2 ^ 62 = (2 ^ 31 + 1) * F64.unit

/-- The unit sample (R83, R89): zero for raw 0, strictly increasing, at most `1 - 2^-31`, which the largest raw value
reaches. -/
def Obligations.UnitSampleIsIncreasingAndBelowOne : Prop :=
  (∀ q r : Word, 0 ≤ q.toInt → q.toInt < r.toInt → r.toInt < MAX → (unitOf q).mag < (unitOf r).mag) ∧
  (∀ r : Word, InRange r → (unitOf r).neg = false ∧ (unitOf r).mag * 2 ^ 31 ≤ (2 ^ 31 - 1) * F64.unit) ∧
  (unitOf 0#32).mag = 0 ∧ (unitOf 2147483646#32).mag * 2 ^ 31 = (2 ^ 31 - 1) * F64.unit

/-- `SAMPLE_UNIT` (R83): on a seeded engine it completes with the pattern of the raw sample times `UNIT_SCALE` in
`RES`; one draw. -/
def Obligations.SampleUnitReturnsTheProduct : Prop :=
  ∀ s : State, s.gen.seeded = true →
    exec .sampleUnit s = .next { s with
      gen := (rawSample s.gen).2
      res := bits64 (mul64 (f64OfInt (rawSample s.gen).1.toInt) UNIT_SCALE)
      err := .ok }

/-- The bound of a scaled integer (R90): a sample up to `1 - 2^-32` scaled by `n` truncates to at most `n - 1`; the
bound is reached; scaling by 0 gives 0. -/
def Obligations.ScaledIntegerIsBelowTheRange : Prop :=
  (∀ (d : F64) (n : Int), d.neg = false → d.mag * 2 ^ 32 ≤ (2 ^ 32 - 1) * F64.unit → 1 ≤ n → n ≤ 2 ^ 32 - 1 →
    0 ≤ scale d n ∧ scale d n ≤ n - 1) ∧
  (∀ d : F64, scale d 0 = 0) ∧
  ∃ d : F64, d.neg = false ∧ d.mag * 2 ^ 32 = (2 ^ 32 - 1) * F64.unit ∧ scale d 4294967295 = 4294967294

/-- `NEXT_MAX max` (R84): on a seeded engine and `max >= 0` it completes with the scaled unit sample, one draw also for
`max = 0`; the result is below `max`, or 0 for `max = 0`. -/
def Obligations.NextMaxReturnsTheScaledSample : Prop :=
  ∀ (s : State) (hi : Int), s.gen.seeded = true → (Instr.nextMax hi).wf = true → 0 ≤ hi →
    ∃ t, exec (.nextMax hi) s = .next t ∧ t = { s with gen := (rawSample s.gen).2, res := t.res, err := .ok } ∧
      t.res.toInt = scale (unitOf (rawSample s.gen).1) hi ∧
      (InRange (rawSample s.gen).1 → 0 ≤ t.res.toInt ∧ t.res.toInt ≤ max 0 (hi - 1))

/-- The large-range sample (R88, R89): two draws, magnitude then sign; the addition is exact and the division is the
only rounding; the result is in `[0, 1 - 2^-32]`. -/
def Obligations.LargeSampleIsOneDivision : Prop :=
  (∀ g : Gen, (largeSample g).2 = afterDraws rawSample 2 g ∧
    (largeSample g).1 = largeOf (nthDraw rawSample 0 g) (nthDraw rawSample 1 g)) ∧
  ∀ m p : Word, InRange m →
    largeOf m p = div64 (f64OfInt ((if p.toInt % 2 = 0 then -m.toInt else m.toInt) + 2147483646)) (f64OfInt 4294967293) ∧
    (largeOf m p).neg = false ∧ (largeOf m p).mag * 2 ^ 32 ≤ (2 ^ 32 - 1) * F64.unit

/-- `NEXT_RANGE min, max` (R86, R85): on a seeded engine and `min <= max` it completes; a range up to `MAX` takes one
draw, a larger one two; from raw samples in `[0, MAX)` the result is `min` plus the scaled unit sample, or the scaled
large-range sample, and lies in `[min, max)`, or is `min` for `min = max`. -/
def Obligations.NextRangeReturnsTheOffsetSample : Prop :=
  ∀ (s : State) (lo hi : Int), s.gen.seeded = true → (Instr.nextRange lo hi).wf = true → lo ≤ hi →
    ∃ t, exec (.nextRange lo hi) s = .next t ∧
      t = { s with gen := afterDraws rawSample (if hi - lo ≤ MAX then 1 else 2) s.gen, res := t.res, err := .ok } ∧
      (InRange (nthDraw rawSample 0 s.gen) → InRange (nthDraw rawSample 1 s.gen) →
        (hi - lo ≤ MAX → t.res.toInt = scale (unitOf (nthDraw rawSample 0 s.gen)) (hi - lo) + lo) ∧
        (MAX < hi - lo →
          t.res.toInt = scale (largeOf (nthDraw rawSample 0 s.gen) (nthDraw rawSample 1 s.gen)) (hi - lo) + lo) ∧
        lo ≤ t.res.toInt ∧ t.res.toInt ≤ max lo (hi - 1))

/-! ## The 64-bit commands -/

/-- The 64-bit composition (R96): three draws; the first piece, 22 bits, is lowest and the third, 20 bits, highest, each
the leading bits of its unit sample. -/
def Obligations.CompositionLayout : Prop :=
  ∀ g : Gen,
    (uint64Draw g).2 = afterDraws rawSample 3 g ∧
    (InRange (nthDraw rawSample 0 g) → InRange (nthDraw rawSample 1 g) → InRange (nthDraw rawSample 2 g) →
      (uint64Draw g).1.toNat =
        (unitOf (nthDraw rawSample 0 g)).mag * 2 ^ 22 / F64.unit +
        (unitOf (nthDraw rawSample 1 g)).mag * 2 ^ 22 / F64.unit * 2 ^ 22 +
        (unitOf (nthDraw rawSample 2 g)).mag * 2 ^ 20 / F64.unit * 2 ^ 44)

/-- The bit count (R99): the least `b` with `2^b >= x`. -/
def Obligations.CeilLog2IsTheLeastExponent : Prop :=
  ∀ x : Nat, 1 ≤ x → x ≤ 2 ^ ceilLog2 x ∧ ∀ b, x ≤ 2 ^ b → ceilLog2 x ≤ b

/-- `NEXT_INT64` (R97): without a seed it raises `NotSeeded`; on a seeded engine it completes whenever some 64-bit draw
shifted right by one is not `2^63 - 1`, with the first such value in `RES`; every rejected draw is spent. -/
def Obligations.NextInt64ReturnsTheFirstAccepted : Prop :=
  (∀ s : State, s.gen.seeded = false → exec .nextInt64 s = .next { s with err := .notSeeded }) ∧
  ∀ (s : State) (n : Nat), s.gen.seeded = true →
    (nthDraw uint64Draw n s.gen).toNat / 2 ≠ 2 ^ 63 - 1 →
    (∀ k, k < n → (nthDraw uint64Draw k s.gen).toNat / 2 = 2 ^ 63 - 1) →
      ∃ t, exec .nextInt64 s = .next t ∧
        t = { s with gen := afterDraws uint64Draw (n + 1) s.gen, res := t.res, err := .ok } ∧
        t.res.toNat = (nthDraw uint64Draw n s.gen).toNat / 2 ∧ t.res.toNat ≤ 2 ^ 63 - 2

/-- `NEXT_INT64_RANGE min, max` with an exclusive range of 0 or 1 (R98): it completes with `min` and does not touch
the generator. -/
def Obligations.DegenerateInt64RangeDrawsNothing : Prop :=
  ∀ (s : State) (lo hi : Int), s.gen.seeded = true → (Instr.nextInt64Range lo hi).wf = true → lo ≤ hi → hi ≤ lo + 1 →
    ∃ t, exec (.nextInt64Range lo hi) s = .next t ∧ t = { s with res := t.res, err := .ok } ∧ t.res.toInt = lo

/-- `NEXT_INT64_RANGE min, max` with a larger range (R98): it completes whenever some draw, cut to its top `bits` bits,
is below the range, with `min` plus the first such value, which lies in `[min, max)`; every rejected draw is spent. -/
def Obligations.NextInt64RangeReturnsTheFirstBelow : Prop :=
  ∀ (s : State) (lo hi : Int) (bits n : Nat),
    s.gen.seeded = true → (Instr.nextInt64Range lo hi).wf = true → lo + 1 < hi →
    (2 ^ bits : Int) ≥ hi - lo → (2 ^ (bits - 1) : Int) < hi - lo →
    ((nthDraw uint64Draw n s.gen).toNat / 2 ^ (64 - bits) : Int) < hi - lo →
    (∀ k, k < n → ¬ ((nthDraw uint64Draw k s.gen).toNat / 2 ^ (64 - bits) : Int) < hi - lo) →
      ∃ t, exec (.nextInt64Range lo hi) s = .next t ∧
        t = { s with gen := afterDraws uint64Draw (n + 1) s.gen, res := t.res, err := .ok } ∧
        t.res.toInt = lo + (nthDraw uint64Draw n s.gen).toNat / 2 ^ (64 - bits) ∧
        lo ≤ t.res.toInt ∧ t.res.toInt < hi

/-- `NEXT_INT64_RANGE` over a power of two (R98, R141): every draw is accepted, so it always completes, with exactly one
64-bit draw. -/
def Obligations.PowerOfTwoRangeTakesOneDraw : Prop :=
  ∀ (s : State) (lo : Int) (k : Nat),
    s.gen.seeded = true → (Instr.nextInt64Range lo (lo + 2 ^ k)).wf = true → 1 ≤ k →
      ∃ t, exec (.nextInt64Range lo (lo + 2 ^ k)) s = .next t ∧ t.err = .ok ∧ t.gen = afterDraws rawSample 3 s.gen

/-! ## The single-precision sample and the byte fill -/

/-- The rejection set (R107, by R105): a sample below 1 narrows to 1.0 exactly from `1 - 2^-25` on, so `NEXT_SINGLE`
rejects exactly the 64 raw values from 2147483583 to 2147483646. -/
def Obligations.SingleRejectsExactlySixtyFourRawValues : Prop :=
  (∀ d : F64, d.neg = false → d.mag < F64.unit →
    (f32OfF64 d = F32.one ↔ (2 ^ 25 - 1) * F64.unit ≤ d.mag * 2 ^ 25)) ∧
  ∀ r : Word, InRange r → (acceptSingle (f32OfF64 (unitOf r)) = false ↔ 2147483583 ≤ r.toInt)

/-- `NEXT_SINGLE` (R106): without a seed it raises `NotSeeded`; on a seeded engine it completes whenever some draw does
not narrow to 1.0, with the pattern of the first such draw, zero-extended; every rejected draw is spent; from a raw
sample in `[0, MAX)` the result is `+0.0` or lies in `[2^-31, 1 - 2^-24]`. -/
def Obligations.NextSingleReturnsTheFirstBelowOne : Prop :=
  (∀ s : State, s.gen.seeded = false → exec .nextSingle s = .next { s with err := .notSeeded }) ∧
  ∀ (s : State) (n : Nat), s.gen.seeded = true →
    f32OfF64 (unitOf (nthDraw rawSample n s.gen)) ≠ F32.one →
    (∀ k, k < n → f32OfF64 (unitOf (nthDraw rawSample k s.gen)) = F32.one) →
      ∃ t, exec .nextSingle s = .next t ∧
        t = { s with gen := afterDraws rawSample (n + 1) s.gen, res := t.res, err := .ok } ∧
        t.res.toNat = (bits32f (f32OfF64 (unitOf (nthDraw rawSample n s.gen)))).toNat ∧
        (InRange (nthDraw rawSample n s.gen) →
          t.res.toNat = 0 ∨ 0x30000000 ≤ t.res.toNat ∧ t.res.toNat ≤ 0x3F7FFFFF)

/-- Non-termination (R140): on a seeded engine the three looping commands end in the fault exactly when every draw of
their loop, for ever, is rejected. Ending in a fault there is the model's form of "does not complete" (log entry 5). -/
def Obligations.FaultMeansTheLoopNeverEnds : Prop :=
  ∀ (s : State) (lo hi : Int), s.gen.seeded = true →
    (exec .nextInt64 s = .fault .commandNeverCompletes ↔
      ∀ k, acceptInt64 (nthDraw (shiftedDraw 1) k s.gen) = false) ∧
    (exec .nextSingle s = .fault .commandNeverCompletes ↔ ∀ k, acceptSingle (nthDraw singleDraw k s.gen) = false) ∧
    ((Instr.nextInt64Range lo hi).wf = true → lo + 1 < hi →
      (exec (.nextInt64Range lo hi) s = .fault .commandNeverCompletes ↔
        ∀ k, acceptBelow (hi - lo).toNat
          (nthDraw (shiftedDraw (64 - ceilLog2 (hi - lo).toNat)) k s.gen) = false))

/-- Only three commands can fail to complete (R140): every other command answers a next state on every state and every
operand, and no command is ever refused. -/
def Obligations.OtherCommandsAlwaysComplete : Prop :=
  ∀ (i : Instr) (s : State),
    (∀ r, exec i s ≠ .refused r) ∧
    (i ≠ .nextInt64 → i ≠ .nextSingle → (∀ lo hi, i ≠ .nextInt64Range lo hi) → ∃ t, exec i s = .next t)

/-- `FILL_BYTES len` (R109, R108, R37): without a seed it raises `NotSeeded`; on a seeded engine it completes; position
`j` holds the raw sample number `j` modulo 256, no position exists at or beyond `len`, exactly `len` draws are spent,
and nothing else changes. The buffer is the sequence the command produced (R37, log entry 6). -/
def Obligations.FillBytesWritesOneByteADraw : Prop :=
  (∀ (s : State) (len : Nat), s.gen.seeded = false → exec (.fillBytes len) s = .next { s with err := .notSeeded }) ∧
  ∀ (s : State) (len : Nat), s.gen.seeded = true →
    ∃ t, exec (.fillBytes len) s = .next t ∧
      t = { s with gen := afterDraws rawSample len s.gen, buf := t.buf, err := .ok } ∧
      (∀ j, j < len → ∃ b, Memory.read t.buf j = some b ∧
        b.toNat = (nthDraw rawSample j s.gen).toNat % 256) ∧
      ∀ j, len ≤ j → Memory.read t.buf j = none

/-- Byte fills in a row (R109): `FILL_BYTES a` followed by `FILL_BYTES b` gives the `a + b` bytes of one `FILL_BYTES`, and
leaves the generator where that one would. -/
def Obligations.FillBytesConcatenates : Prop :=
  ∀ (s t u w : State) (m n : Nat),
    exec (.fillBytes m) s = .next t → exec (.fillBytes n) t = .next u → exec (.fillBytes (m + n)) s = .next w →
      u.gen = w.gen ∧
      (s.gen.seeded = true → ∀ j, (j < m → Memory.read w.buf j = Memory.read t.buf j) ∧
        Memory.read w.buf (m + j) = Memory.read u.buf j)

/-! ## Frames and whole-machine rules -/

/-- Draw counts (R141): how many raw samples each command consumes; an error and `SEED` consume none, `SEED` clears
`init`, and any raw sample initialises the table if it was not. That `SEED` keeps the table words is R34 (log entry 9). -/
def Obligations.DrawCounts : Prop :=
  (∀ (g : Gen) (n : Nat), 1 ≤ n → (afterDraws rawSample n g).init = true) ∧
  (∀ (i : Instr) (s t : State), exec i s = .next t → t.err ≠ .ok → t.gen = s.gen) ∧
  (∀ (v : Int) (s t : State), exec (.seed v) s = .next t →
    t.gen.init = false ∧ t.gen.table = s.gen.table ∧ t.gen.indexA = s.gen.indexA ∧ t.gen.indexB = s.gen.indexB) ∧
  ∀ (s t : State) (lo hi : Int) (len : Nat), s.gen.seeded = true → lo ≤ hi →
    (exec .nextRaw s = .next t → t.gen = afterDraws rawSample 1 s.gen) ∧
    (exec .sampleUnit s = .next t → t.gen = afterDraws rawSample 1 s.gen) ∧
    (0 ≤ hi → exec (.nextMax hi) s = .next t → t.gen = afterDraws rawSample 1 s.gen) ∧
    (exec (.nextRange lo hi) s = .next t → t.gen = afterDraws rawSample (if hi - lo ≤ MAX then 1 else 2) s.gen) ∧
    (exec .nextInt64 s = .next t → ∃ k, 1 ≤ k ∧ t.gen = afterDraws rawSample (3 * k) s.gen) ∧
    ((Instr.nextInt64Range lo hi).wf = true → exec (.nextInt64Range lo hi) s = .next t →
      ∃ k, t.gen = afterDraws rawSample (3 * k) s.gen ∧ (k = 0 ↔ hi - lo ≤ 1) ∧
        ((∃ b : Nat, 1 ≤ b ∧ hi - lo = 2 ^ b) → k = 1)) ∧
    (exec .nextSingle s = .next t → ∃ k, 1 ≤ k ∧ t.gen = afterDraws rawSample k s.gen) ∧
    (exec (.fillBytes len) s = .next t → t.gen = afterDraws rawSample len s.gen)

/-- What no command writes (R20, R33): the operand registers, the actions the host has still to take, and word 0 of
the table; and only `SEED` changes the seed and the seeded flag (R14, R15). `host` and `freeCount` are the model's own
fields (log entries 1 and 3), and that word 0 is kept through a command is the model's choice (log entry 10). -/
def Obligations.CommandsNeverWriteOperandsOrWordZero : Prop :=
  ∀ (i : Instr) (s t : State), exec i s = .next t →
    t.arg0 = s.arg0 ∧ t.arg1 = s.arg1 ∧ t.host = s.host ∧ t.freeCount = s.freeCount ∧
    t.gen.read 0 = s.gen.read 0 ∧
    ((∀ v, i ≠ .seed v) → t.gen.seed = s.gen.seed ∧ t.gen.seeded = s.gen.seeded)

/-- The result register (R21): `SEED`, `FILL_BYTES` and every command that ends in an error leave `RES` unchanged. -/
def Obligations.ResultIsKeptByErrorsSeedAndFill : Prop :=
  ∀ (i : Instr) (s t : State), exec i s = .next t →
    (t.err ≠ .ok ∨ (∃ v, i = .seed v) ∨ ∃ len, i = .fillBytes len) → t.res = s.res

/-- The buffer's frame (R34, R37): a command other than `FILL_BYTES` leaves every byte of the buffer as it was, and so
does a `FILL_BYTES` without a seed; on a seeded engine `FILL_BYTES` leaves no byte at or beyond its length. -/
def Obligations.OnlyFillBytesWritesTheBuffer : Prop :=
  ∀ (i : Instr) (s t : State), exec i s = .next t →
    ((∀ len, i ≠ .fillBytes len) → ∀ j, Memory.read t.buf j = Memory.read s.buf j) ∧
    (∀ len, i = .fillBytes len →
      (s.gen.seeded = false → ∀ j, Memory.read t.buf j = Memory.read s.buf j) ∧
      (s.gen.seeded = true → ∀ j, len ≤ j → Memory.read t.buf j = none))

/-- The structural invariant is kept by every step from every state that has it: the buffer's canonical form (log
entry 6), the cursors' distance (R25), and no table without a seed. -/
def Obligations.EveryStepKeepsTheInvariant : Prop :=
  ∀ s t : State, s.Inv → step s = .next t → t.Inv

/-- The machine right after reset has the structural invariant and live words in range, with the values the model names
(log entries 2 and 6). -/
def Obligations.ResetHasTheInvariant : Prop := State.reset.Inv ∧ State.reset.gen.TableInRange

/-- The table range is kept by every step (R24): "at all times" read as "whenever no command is in progress". -/
def Obligations.EveryStepKeepsTheTableInRange : Prop :=
  ∀ s t : State, s.gen.TableInRange → step s = .next t → t.gen.TableInRange

/-- Re-seeding as re-boot, step by step (R134, R29, R33): a step keeps two states indistinguishable to the host, or ends
both the same way, and `SEED s` makes any two engines indistinguishable whose host registers, buffer and host agree.
`host` and `freeCount` are the model's own fields (log entries 1 and 3). -/
def Obligations.StepsKeepStatesIndistinguishable : Prop :=
  (∀ s t : State, s.SameFuture t → SameOutcome (step s) (step t)) ∧
  ∀ (v : Int) (s t s' t' : State),
    s.arg0 = t.arg0 → s.arg1 = t.arg1 → s.res = t.res → s.buf = t.buf → s.host = t.host → s.freeCount = t.freeCount →
    exec (.seed v) s = .next s' → exec (.seed v) t = .next t' → s'.SameFuture t'
end

