-- ==== Sys2Proof/Laws/Arith.lean ====
section
/-! SUPPORT. The 32-bit arithmetic as statements about integers (spec 00_scope.md R10, 41_raw_sample.md R70, R71). -/

namespace Sys2Proof.Machine

/-- `sub32` is the spec's `wrap32(a - b)`. -/
theorem sub32_eq_wrap32 (a b : Word) : sub32 a b = wrap32 (a.toInt - b.toInt) := by
  apply BitVec.eq_of_toInt_eq
  simp [sub32, wrap32, BitVec.toInt_sub]

/-- `add32` is the spec's `wrap32(a + b)`. -/
theorem add32_eq_wrap32 (a b : Word) : add32 a b = wrap32 (a.toInt + b.toInt) := by
  apply BitVec.eq_of_toInt_eq
  simp [add32, wrap32, BitVec.toInt_add]

theorem word_toInt_bounds (v : Word) : -2147483648 ≤ v.toInt ∧ v.toInt ≤ 2147483647 := by
  have h1 := BitVec.le_toInt v
  have h2 := BitVec.toInt_lt (x := v)
  norm_num at h1 h2
  omega

/-- The balanced residue modulo 2^32 of an integer less than 2^32 away from the `i32` range. -/
theorem sub32_toInt (a b : Word) : (sub32 a b).toInt =
    if a.toInt - b.toInt < -2147483648 then a.toInt - b.toInt + 4294967296
    else if 2147483647 < a.toInt - b.toInt then a.toInt - b.toInt - 4294967296
    else a.toInt - b.toInt := by
  have ha := word_toInt_bounds a
  have hb := word_toInt_bounds b
  simp only [sub32, BitVec.toInt_sub, Int.bmod_def]
  norm_num
  split <;> split <;> (try split) <;> omega

@[simp] theorem maxWord_toInt : maxWord.toInt = 2147483647 := by decide

theorem msb_iff_neg (v : Word) : v.msb = true ↔ v.toInt < 0 := by
  rw [BitVec.msb_eq_toInt]; simp

/-- The fold on integers (R71): adding `MAX` to a negative value cannot wrap. -/
theorem fold_toInt (v : Word) : (fold v).toInt = if v.toInt < 0 then v.toInt + MAX else v.toInt := by
  have hv := word_toInt_bounds v
  unfold fold
  by_cases h : v.toInt < 0
  · rw [if_pos ((msb_iff_neg v).mpr h), if_pos h]
    simp only [add32, BitVec.toInt_add, maxWord_toInt, MAX, Int.bmod_def]
    norm_num
    split <;> omega
  · rw [if_neg (fun e => h ((msb_iff_neg v).mp e)), if_neg h]

/-- The adjustment of a raw draw on integers (R75). -/
theorem adjust_toInt (r : Word) : (adjust r).toInt =
    if r.toInt = MAX then MAX - 1 else if r.toInt < 0 then r.toInt + MAX else r.toInt := by
  unfold adjust
  by_cases h : r = maxWord
  · subst h; decide
  · have h' : r.toInt ≠ MAX := fun e => h (BitVec.eq_of_toInt_eq (by simpa [MAX] using e))
    rw [if_neg h, if_neg h', fold_toInt]

/-- From any table whatever, a raw sample lies in `[-1, MAX)` (R71, R75). -/
theorem adjust_bounds (r : Word) : -1 ≤ (adjust r).toInt ∧ (adjust r).toInt < MAX := by
  have hr := word_toInt_bounds r
  rw [adjust_toInt]
  unfold MAX
  split <;> (try split) <;> omega

/-- The difference of two words in range folds into range, with no wrap (R77, R69). -/
theorem fold_sub32_inRange {a b : Word} (ha : InRange a) (hb : InRange b) : InRange (fold (sub32 a b)) := by
  unfold InRange MAX at *
  rw [fold_toInt, sub32_toInt, MAX]
  split <;> split <;> (try split) <;> omega

/-- On words in range the adjustment of the difference is the fold. -/
theorem adjust_sub32_inRange {a b : Word} (ha : InRange a) (hb : InRange b) : InRange (adjust (sub32 a b)) := by
  unfold InRange MAX at *
  rw [adjust_toInt, sub32_toInt, MAX]
  split <;> split <;> (try split) <;> omega

/-- The magnitude of a seed on integers (R62). -/
theorem abs32_toInt (v : Word) : (abs32 v).toInt =
    if v.toInt = -2147483648 then MAX else if v.toInt < 0 then -v.toInt else v.toInt := by
  have hv := word_toInt_bounds v
  unfold abs32
  by_cases h : v = minWord
  · subst h; decide
  · have hmin : minWord.toInt = -2147483648 := by decide
    have h' : v.toInt ≠ -2147483648 := fun e => h (BitVec.eq_of_toInt_eq (e.trans hmin.symm))
    rw [if_neg h, if_neg h']
    by_cases hn : v.toInt < 0
    · rw [if_pos ((msb_iff_neg v).mpr hn), if_pos hn, BitVec.toInt_neg, Int.bmod_def]
      norm_num
      split <;> omega
    · rw [if_neg (fun e => hn ((msb_iff_neg v).mp e)), if_neg hn]

theorem isI32_iff {v : Int} : isI32 v = true ↔ -2147483648 ≤ v ∧ v ≤ 2147483647 := by simp [isI32]

theorem isI64_iff {v : Int} : isI64 v = true ↔ -9223372036854775808 ≤ v ∧ v ≤ 9223372036854775807 := by simp [isI64]

theorem isU32_iff {n : Nat} : isU32 n = true ↔ n < 4294967296 := by simp [isU32]

theorem wrap32_toInt {v : Int} (h : isI32 v = true) : (wrap32 v).toInt = v := by
  rw [isI32_iff] at h
  simp only [wrap32, BitVec.toInt_ofInt, Int.bmod_def]
  norm_num
  split <;> omega

theorem wrap64_toInt {v : Int} (h : isI64 v = true) : (wrap64 v).toInt = v := by
  rw [isI64_iff] at h
  simp only [wrap64, BitVec.toInt_ofInt, Int.bmod_def]
  norm_num
  split <;> omega

/-- The result register of an `i32` result reads back as that result (R51). -/
theorem resultI32_toInt {v : Int} (h : isI32 v = true) : (resultI32 v).toInt = v := by
  unfold resultI32
  rw [BitVec.toInt_signExtend_of_le (by omega)]
  exact wrap32_toInt h

/-- The exclusive range is the exact difference (R98). -/
theorem exclusiveRange_eq {lo hi : Int} (h : lo ≤ hi) (hlo : isI64 lo = true) (hhi : isI64 hi = true) :
    (exclusiveRange lo hi : Int) = hi - lo := by
  rw [isI64_iff] at hlo hhi
  simp only [exclusiveRange, umod64, BitVec.toNat_ofInt]
  norm_num
  omega

end Sys2Proof.Machine
end

