-- ==== Sys2Proof/Laws/Decode.lean ====
section
/-! SUPPORT. Operand assembly undone and bounded (spec 30_encoding.md R48 to R50, R56). -/

namespace Sys2Proof.Machine

theorem readI32_wf (w : DWord) : isI32 (readI32 w) = true := isI32_iff.mpr (word_toInt_bounds _)

theorem readI64_wf (w : DWord) : isI64 (readI64 w) = true := by
  have h1 := BitVec.le_toInt w
  have h2 := BitVec.toInt_lt (x := w)
  norm_num at h1 h2
  exact isI64_iff.mpr ⟨h1, by unfold readI64; omega⟩

theorem readU32_wf (w : DWord) : isU32 (readU32 w) = true := isU32_iff.mpr (w.extractLsb' 0 32).isLt

/-- An `i32` operand is read from the low half alone (R48). -/
theorem readI32_congr {v w : DWord} (h : v.toNat % 2 ^ 32 = w.toNat % 2 ^ 32) : readI32 v = readI32 w := by
  have : v.extractLsb' 0 32 = w.extractLsb' 0 32 := by
    apply BitVec.eq_of_toNat_eq
    simpa [BitVec.extractLsb'_toNat] using h
  rw [readI32, readI32, this]

theorem readU32_eq (w : DWord) : readU32 w = w.toNat % 2 ^ 32 := by
  simp [readU32, BitVec.extractLsb'_toNat]

theorem readI32_putI32 {v : Int} (h : isI32 v = true) : readI32 (putI32 v) = v := by
  have e : (putI32 v).extractLsb' 0 32 = BitVec.ofInt 32 v := by
    apply BitVec.eq_of_toNat_eq
    simp only [putI32, BitVec.extractLsb'_toNat, BitVec.toNat_setWidth]
    have := (BitVec.ofInt 32 v).isLt
    norm_num at this ⊢
    omega
  rw [readI32, e]
  exact wrap32_toInt h

theorem readI64_putI64 {v : Int} (h : isI64 v = true) : readI64 (putI64 v) = v := wrap64_toInt h

theorem readU32_putU32 {n : Nat} (h : isU32 n = true) : readU32 (putU32 n) = n := by
  rw [isU32_iff] at h
  rw [readU32_eq]
  simp only [putU32, BitVec.toNat_setWidth, BitVec.toNat_ofNat]
  omega

end Sys2Proof.Machine
end

