-- ==== Sys2Proof/Laws/State.lean ====
section
/-! SUPPORT. One lemma per field for each named update of the state: writing a table word, binding a seed's table,
drawing a raw sample, the reset event. Later proofs cite these and never unfold a record update. -/

namespace Sys2Proof.Machine

variable (g : Gen) (s : State) (t : Table) (i j : Cursor) (v : Word)

@[simp] theorem readT_writeT_same : readT (writeT t i v) i = v := by
  simp [readT, writeT]

theorem readT_writeT_other (h : j ≠ i) : readT (writeT t i v) j = readT t j := by
  have hne : i.val ≠ j.val := fun e => h (Fin.ext e.symm)
  simp [readT, writeT, hne]

theorem readT_writeT : readT (writeT t i v) j = if j = i then v else readT t j := by
  by_cases h : j = i
  · subst h; simp
  · simp [h, readT_writeT_other]

/-- A table is what its words are. -/
theorem table_ext {t u : Table} (e : ∀ i : Cursor, readT t i = readT u i) : t = u := by
  apply Vector.ext
  intro k hk
  exact e ⟨k, hk⟩

@[simp] theorem Gen.read_mk (a : Bool) (b : Word) (c : Bool) (x y : Cursor) :
    Gen.read ⟨a, b, c, t, x, y⟩ i = readT t i := rfl

@[simp] theorem drawWord_seeded : (drawWord g).2.seeded = g.seeded := rfl
@[simp] theorem drawWord_seed : (drawWord g).2.seed = g.seed := rfl
@[simp] theorem drawWord_init : (drawWord g).2.init = g.init := rfl
@[simp] theorem drawWord_indexA : (drawWord g).2.indexA = nextCursor g.indexA := rfl
@[simp] theorem drawWord_indexB : (drawWord g).2.indexB = nextCursor g.indexB := rfl

theorem drawWord_value :
    (drawWord g).1 = adjust (sub32 (g.read (nextCursor g.indexA)) (g.read (nextCursor g.indexB))) := rfl

/-- A raw draw writes the word under the advanced `indexA` and no other (R73, R75). -/
theorem drawWord_read :
    (drawWord g).2.read j = if j = nextCursor g.indexA then (drawWord g).1 else g.read j :=
  readT_writeT g.table (nextCursor g.indexA) j (drawWord g).1

@[simp] theorem afterReset_seeded : s.afterReset.gen.seeded = false := rfl
@[simp] theorem afterReset_init : s.afterReset.gen.init = false := rfl
@[simp] theorem afterReset_err : s.afterReset.err = .ok := rfl
@[simp] theorem afterReset_buf : s.afterReset.buf = s.buf := rfl
@[simp] theorem afterReset_host : s.afterReset.host = s.host := rfl
@[simp] theorem afterReset_freeCount : s.afterReset.freeCount = s.freeCount + 1 := rfl

end Sys2Proof.Machine
end

