-- ==== Sys2Proof/Laws/Draws.lean ====
section
/-! SUPPORT. Draws in a row, and the rejection loop in terms of them: the loop answers the first accepted draw, or
nothing when every draw it takes is rejected (spec 70_reset_and_hazards.md R140). -/

namespace Sys2Proof.Machine

variable {α : Type} (draw : Gen → α × Gen) (accept : α → Bool)

theorem afterDraws_add (m n : Nat) (g : Gen) : afterDraws draw (m + n) g = afterDraws draw n (afterDraws draw m g) := by
  induction m generalizing g with
  | zero => simp [afterDraws]
  | succ m ih => rw [Nat.succ_add]; exact ih (draw g).2

/-- One draw taken off the front; cite it where `g` is a concrete generator, a definitional unfolding there makes the
kernel compare generators. -/
theorem afterDraws_cons (n : Nat) (g : Gen) : afterDraws draw (n + 1) g = afterDraws draw n (draw g).2 := rfl

@[simp] theorem afterDraws_zero (g : Gen) : afterDraws draw 0 g = g := rfl

theorem nthDraw_zero (g : Gen) : nthDraw draw 0 g = (draw g).1 := rfl

theorem nthDraw_cons (n : Nat) (g : Gen) : nthDraw draw (n + 1) g = nthDraw draw n (draw g).2 := rfl

theorem nthDraw_add (m n : Nat) (g : Gen) : nthDraw draw (m + n) g = nthDraw draw n (afterDraws draw m g) := by
  rw [nthDraw, afterDraws_add, nthDraw]

theorem afterDraws_succ (n : Nat) (g : Gen) : afterDraws draw (n + 1) g = (draw (afterDraws draw n g)).2 := by
  rw [afterDraws_add]; rfl

/-- A fixed number of raw samples inside each draw of another kind. -/
theorem afterDraws_mul {β : Type} (draw' : Gen → β × Gen) (c : Nat)
    (h : ∀ g, (draw g).2 = afterDraws draw' c g) (n : Nat) (g : Gen) :
    afterDraws draw n g = afterDraws draw' (c * n) g := by
  induction n with
  | zero => rfl
  | succ n ih => rw [afterDraws_succ, ih, h, Nat.mul_succ, afterDraws_add]

/-- The loop answers the first accepted draw among those it may take. -/
theorem redraw_eq_some {fuel n : Nat} {g : Gen} (hn : n < fuel) (h : FirstAccepted draw accept n g) :
    redraw draw accept fuel g = some (nthDraw draw n g, afterDraws draw (n + 1) g) := by
  induction fuel generalizing n g with
  | zero => omega
  | succ fuel ih =>
    cases n with
    | zero =>
      have h0 : accept (draw g).1 = true := h.1
      simp only [redraw]
      rw [if_pos h0]
      rfl
    | succ n =>
      have h0 : accept (draw g).1 = false := h.2 0 (Nat.succ_pos n)
      have h' : FirstAccepted draw accept n (draw g).2 := ⟨h.1, fun k hk => h.2 (k + 1) (Nat.succ_lt_succ hk)⟩
      simp only [redraw]
      rw [h0, if_neg (by simp), ih (Nat.lt_of_succ_lt_succ hn) h']
      rfl

/-- The loop answers nothing exactly when it rejects every draw it may take. -/
theorem redraw_eq_none {fuel : Nat} {g : Gen} :
    redraw draw accept fuel g = none ↔ ∀ k, k < fuel → accept (nthDraw draw k g) = false := by
  induction fuel generalizing g with
  | zero => simp [redraw]
  | succ fuel ih =>
    simp only [redraw]
    cases h : accept (draw g).1 with
    | true =>
      simp only [if_true, reduceCtorEq, false_iff]
      intro H
      have := H 0 (by omega)
      simp [nthDraw, afterDraws, h] at this
    | false =>
      rw [if_neg (by simp), ih]
      constructor
      · intro H k hk
        cases k with
        | zero => exact h
        | succ k => exact H k (by omega)
      · intro H k hk
        exact H (k + 1) (by omega)

/-- What the loop answers is the first accepted draw. -/
theorem redraw_some_inv {fuel : Nat} {g : Gen} {d : α × Gen} (h : redraw draw accept fuel g = some d) :
    ∃ n, n < fuel ∧ FirstAccepted draw accept n g ∧ d = (nthDraw draw n g, afterDraws draw (n + 1) g) := by
  by_cases H : ∃ n, n < fuel ∧ accept (nthDraw draw n g) = true
  · classical
    obtain ⟨hlt, hacc⟩ := Nat.find_spec H
    have hf : FirstAccepted draw accept (Nat.find H) g := ⟨hacc, fun k hk => by
      have := Nat.find_min H hk
      cases hb : accept (nthDraw draw k g)
      · rfl
      · exact absurd ⟨by omega, hb⟩ this⟩
    exact ⟨Nat.find H, hlt, hf, Option.some.inj (h.symm.trans (redraw_eq_some draw accept hlt hf))⟩
  · have : redraw draw accept fuel g = none := (redraw_eq_none draw accept).mpr fun k hk => by
      cases hb : accept (nthDraw draw k g)
      · rfl
      · exact absurd ⟨k, hk, hb⟩ H
    rw [this] at h
    cases h

/-- Each raw sample initialises the table if it was not, and keeps the seed. -/
@[simp] theorem rawSample_init (g : Gen) : (rawSample g).2.init = true := by
  unfold rawSample
  split
  · next h => rw [drawWord_init]; exact h
  · rfl

theorem rawSample_of_init {g : Gen} (h : g.init = true) : rawSample g = drawWord g := by
  unfold rawSample; rw [if_pos h]

theorem rawSample_of_not_init {g : Gen} (h : g.init = false) : rawSample g = drawWord (initTable g) := by
  unfold rawSample; rw [h]; rfl

/-- The first raw sample of an uninitialised generator is the first one of the initialised generator (R18). -/
theorem rawSample_initTable {g : Gen} (h : g.init = false) : rawSample g = rawSample (initTable g) := by
  rw [rawSample_of_not_init h, rawSample_of_init rfl]

theorem afterDraws_initTable {n : Nat} {g : Gen} (h : g.init = false) :
    afterDraws rawSample (n + 1) g = afterDraws rawSample (n + 1) (initTable g) := by
  rw [afterDraws_cons, afterDraws_cons, rawSample_initTable h]

/-- The cursor advance in closed form (R72). -/
theorem nextCursor_val (c : Cursor) : (nextCursor c).val = c.val % 55 + 1 := by
  revert c; decide

/-- The draws of the commands, counted in raw samples (R141). -/
theorem unitSample_gen (g : Gen) : (unitSample g).2 = afterDraws rawSample 1 g := rfl
theorem boundedDraw_gen (m : Int) (g : Gen) : (boundedDraw m g).2 = afterDraws rawSample 1 g := rfl
theorem largeSample_gen (g : Gen) : (largeSample g).2 = afterDraws rawSample 2 g := rfl
theorem uint64Draw_gen (g : Gen) : (uint64Draw g).2 = afterDraws rawSample 3 g := rfl
theorem shiftedDraw_gen (k : Nat) (g : Gen) : (shiftedDraw k g).2 = afterDraws rawSample 3 g := rfl
theorem singleDraw_gen (g : Gen) : (singleDraw g).2 = afterDraws rawSample 1 g := rfl

theorem rangeSample_gen (r : Int) (g : Gen) :
    (rangeSample r g).2 = afterDraws rawSample (if r ≤ MAX then 1 else 2) g := by
  unfold rangeSample; split <;> rfl

/-- A loop of shifted draws takes the same draws as a loop of 64-bit compositions. -/
theorem afterDraws_shiftedDraw (k n : Nat) (g : Gen) : afterDraws (shiftedDraw k) n g = afterDraws uint64Draw n g := by
  induction n generalizing g with
  | zero => rfl
  | succ n ih => exact ih (uint64Draw g).2

theorem nthDraw_shiftedDraw (k n : Nat) (g : Gen) : nthDraw (shiftedDraw k) n g = nthDraw uint64Draw n g >>> k := by
  unfold nthDraw
  rw [afterDraws_shiftedDraw]
  rfl

theorem afterDraws_singleDraw (n : Nat) (g : Gen) : afterDraws singleDraw n g = afterDraws rawSample n g := by
  induction n generalizing g with
  | zero => rfl
  | succ n ih => exact ih (rawSample g).2

theorem nthDraw_singleDraw (n : Nat) (g : Gen) :
    nthDraw singleDraw n g = f32OfF64 (unitOf (nthDraw rawSample n g)) := by
  unfold nthDraw
  rw [afterDraws_singleDraw]
  rfl

end Sys2Proof.Machine
end

