-- ==== Sys2Proof/Laws/Memory.lean ====
section
/-! SUPPORT. The laws of the buffer space: a read after a write, and every operation keeps the canonical form. -/

namespace Sys2Proof.Machine

@[simp] theorem Memory.read_write_same (m : Memory) (a : Nat) (v : Byte) : (Memory.write m a v).read a = some v := by
  induction m with
  | nil => simp [Memory.write, Memory.read]
  | cons c m ih =>
    obtain ⟨b, w⟩ := c
    simp only [Memory.write]
    split
    · simp [Memory.read]
    · split
      · simp [Memory.read]
      · next h => simp [Memory.read, Ne.symm h, ih]

theorem Memory.read_write_other (m : Memory) {a b : Nat} (v : Byte) (h : b ≠ a) :
    (Memory.write m a v).read b = m.read b := by
  induction m with
  | nil => simp [Memory.write, Memory.read, Ne.symm h]
  | cons c m ih =>
    obtain ⟨x, w⟩ := c
    simp only [Memory.write]
    split
    · simp [Memory.read, Ne.symm h]
    · split
      · next e => subst e; simp [Memory.read, Ne.symm h]
      · simp [Memory.read, ih]

theorem Memory.mem_write {m : Memory} {a : Nat} {v : Byte} {c : Host.Cell} (h : c ∈ Memory.write m a v) :
    c = (a, v) ∨ c ∈ m := by
  induction m with
  | nil => simpa [Memory.write] using h
  | cons x m ih =>
    obtain ⟨b, w⟩ := x
    simp only [Memory.write] at h
    split at h
    · simpa using h
    · split at h
      · rcases List.mem_cons.mp h with h | h
        · exact .inl h
        · exact .inr (List.mem_cons_of_mem _ h)
      · rcases List.mem_cons.mp h with h | h
        · exact .inr (h ▸ List.mem_cons_self)
        · exact (ih h).imp_right (List.mem_cons_of_mem _)

/-- A write keeps the canonical form. -/
theorem Memory.wf_write {m : Memory} (h : Memory.wf m) (a : Nat) (v : Byte) : Memory.wf (Memory.write m a v) := by
  induction m with
  | nil => simp [Memory.write, Memory.wf]
  | cons x m ih =>
    obtain ⟨b, w⟩ := x
    obtain ⟨hb, hm⟩ := List.pairwise_cons.mp h
    simp only [Memory.write]
    split
    · next hab =>
      refine List.pairwise_cons.mpr ⟨fun c hc => ?_, h⟩
      rcases List.mem_cons.mp hc with rfl | hc
      · exact hab
      · exact Nat.lt_trans hab (hb c hc)
    · split
      · next hab => exact List.pairwise_cons.mpr ⟨fun c hc => hab ▸ hb c hc, hm⟩
      · next h1 h2 =>
        refine List.pairwise_cons.mpr ⟨fun c hc => ?_, ih hm⟩
        rcases Memory.mem_write hc with rfl | hc
        · show b < a; omega
        · exact hb c hc

theorem Memory.read_eq_none {m : Memory} {a : Nat} (h : ∀ c ∈ m, c.1 ≠ a) : m.read a = none := by
  induction m with
  | nil => rfl
  | cons x m ih =>
    obtain ⟨b, w⟩ := x
    have hb : b ≠ a := h (b, w) List.mem_cons_self
    simp [Memory.read, hb, ih fun c hc => h c (List.mem_cons_of_mem _ hc)]

/-- What an abandoned fill may have written is in canonical form. -/
theorem abandonedBuf_wf (n len : Nat) : Memory.wf (abandonedBuf n len) := by
  refine List.pairwise_filterMap.mpr ((List.pairwise_lt_range (n := len)).imp ?_)
  intro i j hij b hb c hc
  simp only [Option.map_eq_some_iff] at hb hc
  obtain ⟨_, _, rfl⟩ := hb
  obtain ⟨_, _, rfl⟩ := hc
  exact hij

/-- An abandoned fill has written nothing at or beyond its length. -/
theorem abandonedBuf_lt {n len : Nat} {c : Host.Cell} (h : c ∈ abandonedBuf n len) : c.1 < len := by
  simp only [abandonedBuf, List.mem_filterMap, List.mem_range, Option.map_eq_some_iff] at h
  obtain ⟨j, hj, b, _, rfl⟩ := h
  exact hj

/-- The buffer after the byte fill: canonical, and inside its positions (R109). -/
theorem fill_wf : ∀ (n j : Nat) (g : Gen) (m : Memory), Memory.wf m → Memory.wf (fill n j g m).2
  | 0, _, _, _, h => h
  | n + 1, j, _, _, h => fill_wf n (j + 1) _ _ (Memory.wf_write h j _)

theorem fill_mem : ∀ (n j : Nat) (g : Gen) (m : Memory) (c : Host.Cell),
    c ∈ (fill n j g m).2 → c ∈ m ∨ (j ≤ c.1 ∧ c.1 < j + n)
  | 0, _, _, _, _, h => .inl h
  | n + 1, j, _, _, c, h => by
    rcases fill_mem n (j + 1) _ _ c h with h | ⟨h1, h2⟩
    · rcases Memory.mem_write h with rfl | h
      · exact .inr ⟨Nat.le_refl _, by show j < j + (n + 1); omega⟩
      · exact .inl h
    · exact .inr ⟨by omega, by omega⟩

/-- The byte fill spends one raw sample for each position. -/
theorem fill_gen : ∀ (n j : Nat) (g : Gen) (m : Memory), (fill n j g m).1 = afterDraws rawSample n g
  | 0, _, _, _ => rfl
  | n + 1, j, g, _ => fill_gen n (j + 1) (rawSample g).2 _

/-- Positions below the fill keep what they held. -/
theorem fill_read_below : ∀ (n j : Nat) (g : Gen) (m : Memory) (a : Nat), a < j →
    (fill n j g m).2.read a = m.read a
  | 0, _, _, _, _, _ => rfl
  | n + 1, j, g, m, a, h => by
    show (fill n (j + 1) _ _).2.read a = _
    rw [fill_read_below n (j + 1) _ _ a (by omega), Memory.read_write_other _ _ (by omega)]

/-- Position `j + k` receives the low byte of the raw sample number `k`. -/
theorem fill_read : ∀ (n j : Nat) (g : Gen) (m : Memory) (k : Nat), k < n →
    (fill n j g m).2.read (j + k) = some (lowByte (nthDraw rawSample k g))
  | n + 1, j, g, m, 0, _ => by
    show (fill n (j + 1) _ _).2.read j = _
    rw [fill_read_below n (j + 1) _ _ j (by omega), Memory.read_write_same]
    rfl
  | n + 1, j, g, m, k + 1, h => by
    show (fill n (j + 1) _ _).2.read (j + (k + 1)) = _
    rw [show j + (k + 1) = j + 1 + k by omega, fill_read n (j + 1) _ _ k (by omega)]
    rfl

end Sys2Proof.Machine
end

