-- ==== Sys2Proof/Laws/Seeding.lean ====
section
/-! SUPPORT. What the steps of `Initialize()` write and what they leave (spec 40_seed_table_init.md R64 to R67), and
what a raw sample leaves. -/

namespace Sys2Proof.Machine

/-- The walk keeps every word whose index it does not visit. -/
theorem walk_read_of_ne : ∀ (n : Nat) (ii : Cursor) (mj mk : Word) (t : Table) (j : Cursor),
    (∀ k, k < n → walkNext^[k + 1] ii ≠ j) → readT (walk n ii mj mk t) j = readT t j
  | 0, _, _, _, _, _, _ => rfl
  | n + 1, ii, mj, mk, t, j, h => by
    rw [walk, walk_read_of_ne n _ _ _ _ j fun k hk => h (k + 1) (by omega)]
    exact readT_writeT_other _ _ _ _ (h 0 (by omega)).symm

/-- The walk advances as the spec's closed form says: `ii = 21 * i mod 55` (R64). -/
theorem walkNext_iterate (k : Nat) : (walkNext^[k] 0).val = 21 * k % 55 := by
  induction k with
  | zero => rfl
  | succ k ih =>
    rw [Function.iterate_succ_apply']
    show (if (walkNext^[k] 0).val + STEP ≥ 55 then _ else _) = _
    unfold STEP
    rw [ih]
    split <;> omega

/-- A mixing step writes the word at its index and no other (R65). -/
theorem mixStep_read (t : Table) (i j : Cursor) : readT (mixStep t i) j =
    if j = i then fold (sub32 (readT t i) (readT t (partner i))) else readT t j := readT_writeT t i j _

theorem foldl_mixStep_read_of_notMem (l : List Cursor) (t : Table) {j : Cursor} (h : j ∉ l) :
    readT (l.foldl mixStep t) j = readT t j := by
  induction l generalizing t with
  | nil => rfl
  | cons i l ih =>
    have hj : j ≠ i := fun e => h (e ▸ List.mem_cons_self)
    rw [List.foldl_cons, ih _ fun e => h (List.mem_cons_of_mem _ e), mixStep_read, if_neg hj]

/-- The partner is never the word itself and never word 0 (R65). -/
theorem partner_ne : ∀ i : Cursor, i ≠ 0 → partner i ≠ i ∧ partner i ≠ 0 := by decide

/-- A fold of mixing steps keeps the live words in range (R69, R77). -/
theorem foldl_mixStep_inRange (l : List Cursor) (hl : ∀ i ∈ l, i ≠ 0) (t : Table)
    (ht : ∀ j : Cursor, j ≠ 0 → InRange (readT t j)) :
    ∀ j : Cursor, j ≠ 0 → InRange (readT (l.foldl mixStep t) j) := by
  induction l generalizing t with
  | nil => exact ht
  | cons i l ih =>
    rw [List.foldl_cons]
    have hi : i ≠ 0 := hl i List.mem_cons_self
    refine ih (fun j hj => hl j (List.mem_cons_of_mem _ hj)) _ fun j hj => ?_
    rw [mixStep_read]
    split
    · exact fold_sub32_inRange (ht i hi) (ht _ (partner_ne i hi).2)
    · exact ht j hj

/-- One mixing pass taken off the front; cite it where the table is concrete. -/
theorem mixPasses_succ (n : Nat) (t : Table) : mixPasses (n + 1) t = mixPasses n (mixPass t) := rfl

/-- The four passes written out (R65). -/
theorem seedTable_eq (v : Word) (t : Table) : seedTable v t =
    mixPass (mixPass (mixPass (mixPass (walk 54 0 (firstWord v) 1#32 (writeT t 55 (firstWord v)))))) := rfl

theorem mixPass_inRange (t : Table) (ht : ∀ j : Cursor, j ≠ 0 → InRange (readT t j)) :
    ∀ j : Cursor, j ≠ 0 → InRange (readT (mixPass t) j) :=
  foldl_mixStep_inRange _ (by decide) t ht

theorem mixPasses_inRange : ∀ (n : Nat) (t : Table), (∀ j : Cursor, j ≠ 0 → InRange (readT t j)) →
    ∀ j : Cursor, j ≠ 0 → InRange (readT (mixPasses n t) j)
  | 0, _, h => h
  | n + 1, t, h => mixPasses_inRange n _ (mixPass_inRange t h)

theorem mixPass_read_zero (t : Table) : readT (mixPass t) 0 = readT t 0 :=
  foldl_mixStep_read_of_notMem _ t (by decide)

theorem mixPasses_read_zero : ∀ (n : Nat) (t : Table), readT (mixPasses n t) 0 = readT t 0
  | 0, _ => rfl
  | n + 1, t => (mixPasses_read_zero n _).trans (mixPass_read_zero t)

/-! `Initialize()`, field by field (R66, R67). -/

@[simp] theorem initTable_indexA (g : Gen) : (initTable g).indexA = 0 := rfl
@[simp] theorem initTable_indexB (g : Gen) : (initTable g).indexB = 21 := rfl
@[simp] theorem initTable_init (g : Gen) : (initTable g).init = true := rfl
@[simp] theorem initTable_seed (g : Gen) : (initTable g).seed = g.seed := rfl
@[simp] theorem initTable_seeded (g : Gen) : (initTable g).seeded = g.seeded := rfl
theorem initTable_table (g : Gen) : (initTable g).table = seedTable g.seed g.table := rfl
theorem initTable_read (g : Gen) (j : Cursor) : (initTable g).read j = readT (seedTable g.seed g.table) j := rfl

/-- No step of `Initialize()` touches word 0 (R33). -/
theorem initTable_read_zero (g : Gen) : (initTable g).read 0 = g.read 0 := by
  rw [initTable_read, seedTable, mixPasses_read_zero, walk_read_of_ne, readT_writeT_other _ _ _ _ (by decide)]
  · rfl
  · intro k hk e
    have := congrArg Fin.val e
    rw [walkNext_iterate] at this
    simp only [Fin.val_zero] at this
    omega

/-- A raw sample keeps the seed, the seeded flag and word 0. -/
@[simp] theorem rawSample_seed (g : Gen) : (rawSample g).2.seed = g.seed := by
  unfold rawSample; split <;> rfl

@[simp] theorem rawSample_seeded (g : Gen) : (rawSample g).2.seeded = g.seeded := by
  unfold rawSample; split <;> rfl

theorem nextCursor_ne_zero : ∀ c : Cursor, nextCursor c ≠ 0 := by decide

theorem rawSample_read_zero (g : Gen) : (rawSample g).2.read 0 = g.read 0 := by
  unfold rawSample
  rw [drawWord_read, if_neg (nextCursor_ne_zero _).symm]
  split
  · rfl
  · exact initTable_read_zero g

@[simp] theorem afterDraws_seed (n : Nat) (g : Gen) : (afterDraws rawSample n g).seed = g.seed := by
  induction n with
  | zero => rfl
  | succ n ih => rw [afterDraws_succ, rawSample_seed, ih]

@[simp] theorem afterDraws_seeded (n : Nat) (g : Gen) : (afterDraws rawSample n g).seeded = g.seeded := by
  induction n with
  | zero => rfl
  | succ n ih => rw [afterDraws_succ, rawSample_seeded, ih]

theorem afterDraws_read_zero (n : Nat) (g : Gen) : (afterDraws rawSample n g).read 0 = g.read 0 := by
  induction n with
  | zero => rfl
  | succ n ih => rw [afterDraws_succ, rawSample_read_zero, ih]

end Sys2Proof.Machine
end

