-- ==== Sys2Proof/Laws/Exec.lean ====
section
/-! SUPPORT. What a command and a step can do, said once: every next state of a command is one of five shapes, and
every step is one action of the host. -/

namespace Sys2Proof.Machine

theorem next_inj {s t : State} (h : (Host.Outcome.next s : Result) = .next t) : s = t := by injection h

theorem raise_eq (e : ErrCode) (s : State) : raise e s = .next { s with err := e } := rfl

theorem complete_eq (s : State) : complete s = .next { s with err := .ok } := rfl

theorem completeWith_eq (v : DWord) (s : State) : completeWith v s = .next { s with res := v, err := .ok } := rfl

section loop
variable {α : Type} (draw : Gen → α × Gen) (accept : α → Bool) (place : α → DWord) (s : State)

/-- A looping command completes with the first accepted draw. -/
theorem completeLoop_eq_next {n : Nat} (hn : n < redrawBound) (h : FirstAccepted draw accept n s.gen) :
    completeLoop draw accept place s =
      .next { s with gen := afterDraws draw (n + 1) s.gen, res := place (nthDraw draw n s.gen), err := .ok } := by
  unfold completeLoop
  rw [redraw_eq_some draw accept hn h]
  rfl

/-- What a looping command can answer. -/
theorem completeLoop_cases :
    (∃ n, n < redrawBound ∧ FirstAccepted draw accept n s.gen ∧ completeLoop draw accept place s =
      .next { s with gen := afterDraws draw (n + 1) s.gen, res := place (nthDraw draw n s.gen), err := .ok }) ∨
    ((∀ k, k < redrawBound → accept (nthDraw draw k s.gen) = false) ∧
      completeLoop draw accept place s = .fault .commandNeverCompletes) := by
  cases h : redraw draw accept redrawBound s.gen with
  | some d =>
    obtain ⟨n, hn, hf, -⟩ := redraw_some_inv draw accept h
    exact .inl ⟨n, hn, hf, completeLoop_eq_next draw accept place s hn hf⟩
  | none =>
    refine .inr ⟨(redraw_eq_none draw accept).mp h, ?_⟩
    unfold completeLoop
    rw [h]

end loop

/-- A command that draws `n` raw samples and returns a value. -/
def Sampled (n : Nat) (s t : State) : Prop :=
  s.gen.seeded = true ∧ t = { s with gen := afterDraws rawSample n s.gen, res := t.res, err := .ok }

theorem completeLoop_sampled {α : Type} {draw : Gen → α × Gen} {accept : α → Bool} {place : α → DWord}
    {s t : State} (c : Nat) (hs : s.gen.seeded = true) (hd : ∀ g, (draw g).2 = afterDraws rawSample c g)
    (h : completeLoop draw accept place s = .next t) :
    ∃ n, FirstAccepted draw accept n s.gen ∧ Sampled (c * (n + 1)) s t ∧ t.res = place (nthDraw draw n s.gen) := by
  rcases completeLoop_cases draw accept place s with ⟨n, _, hf, he⟩ | ⟨_, he⟩
  · have := next_inj (he.symm.trans h)
    subst this
    exact ⟨n, hf, ⟨hs, by simp only [afterDraws_mul draw rawSample c hd]⟩, rfl⟩
  · rw [he] at h
    cases h

/-- Everything a command can leave when it answers a next state: `SEED`'s effect, an error, raw samples drawn and
a value returned, or a buffer filled. -/
theorem exec_next_cases {i : Instr} {s t : State} (h : exec i s = .next t) :
    (∃ v, i = .seed v ∧
      t = { s with gen := { s.gen with seed := wrap32 v, seeded := true, init := false }, err := .ok }) ∨
    (t = { s with err := .notSeeded } ∧ s.gen.seeded = false ∧ ∀ v, i ≠ .seed v) ∨
    (t = { s with err := .invalidRange } ∧ s.gen.seeded = true ∧
      ((∃ hi, i = .nextMax hi ∧ hi < 0) ∨ (∃ lo hi, i = .nextRange lo hi ∧ hi < lo) ∨
        ∃ lo hi, i = .nextInt64Range lo hi ∧ hi < lo)) ∨
    (∃ n, Sampled n s t ∧ (∀ len, i ≠ .fillBytes len) ∧ ∀ v, i ≠ .seed v) ∨
    (∃ len, i = .fillBytes len ∧ s.gen.seeded = true ∧
      t = { s with gen := afterDraws rawSample len s.gen, buf := (fill len 0 s.gen []).2, err := .ok }) := by
  cases i with
  | seed v => exact .inl ⟨v, rfl, (next_inj h).symm⟩
  | nextRaw =>
    simp only [exec, execNextRaw] at h
    split at h
    · next hs => exact .inr (.inl ⟨(next_inj h).symm, hs, by simp⟩)
    · next hs =>
      have := next_inj h; subst this
      exact .inr (.inr (.inr (.inl ⟨1, ⟨by simpa using hs, rfl⟩, by simp, by simp⟩)))
  | sampleUnit =>
    simp only [exec, execSampleUnit] at h
    split at h
    · next hs => exact .inr (.inl ⟨(next_inj h).symm, hs, by simp⟩)
    · next hs =>
      have := next_inj h; subst this
      exact .inr (.inr (.inr (.inl ⟨1, ⟨by simpa using hs, rfl⟩, by simp, by simp⟩)))
  | nextMax hi =>
    simp only [exec, execNextMax] at h
    split at h
    · next hs => exact .inr (.inl ⟨(next_inj h).symm, hs, by simp⟩)
    · next hs =>
      split at h
      · next hn => exact .inr (.inr (.inl ⟨(next_inj h).symm, by simpa using hs, .inl ⟨hi, rfl, hn⟩⟩))
      · have := next_inj h; subst this
        exact .inr (.inr (.inr (.inl ⟨1, ⟨by simpa using hs, rfl⟩, by simp, by simp⟩)))
  | nextRange lo hi =>
    simp only [exec, execNextRange] at h
    split at h
    · next hs => exact .inr (.inl ⟨(next_inj h).symm, hs, by simp⟩)
    · next hs =>
      split at h
      · next hn => exact .inr (.inr (.inl ⟨(next_inj h).symm, by simpa using hs, .inr (.inl ⟨lo, hi, rfl, hn⟩)⟩))
      · have := next_inj h; subst this
        refine .inr (.inr (.inr (.inl ⟨if hi - lo ≤ MAX then 1 else 2, ⟨by simpa using hs, ?_⟩, by simp, by simp⟩)))
        simp only [rangeSample_gen]
  | nextInt64 =>
    simp only [exec, execNextInt64] at h
    split at h
    · next hs => exact .inr (.inl ⟨(next_inj h).symm, hs, by simp⟩)
    · next hs =>
      obtain ⟨n, _, hst, _⟩ := completeLoop_sampled 3 (by simpa using hs) (shiftedDraw_gen 1) h
      exact .inr (.inr (.inr (.inl ⟨_, hst, by simp, by simp⟩)))
  | nextInt64Range lo hi =>
    simp only [exec, execNextInt64Range] at h
    split at h
    · next hs => exact .inr (.inl ⟨(next_inj h).symm, hs, by simp⟩)
    · next hs =>
      split at h
      · next hn => exact .inr (.inr (.inl ⟨(next_inj h).symm, by simpa using hs, .inr (.inr ⟨lo, hi, rfl, hn⟩)⟩))
      · split at h
        · obtain ⟨n, _, hst, _⟩ := completeLoop_sampled 3 (by simpa using hs) (shiftedDraw_gen _) h
          exact .inr (.inr (.inr (.inl ⟨_, hst, by simp, by simp⟩)))
        · have := next_inj h; subst this
          exact .inr (.inr (.inr (.inl ⟨0, ⟨by simpa using hs, rfl⟩, by simp, by simp⟩)))
  | nextSingle =>
    simp only [exec, execNextSingle] at h
    split at h
    · next hs => exact .inr (.inl ⟨(next_inj h).symm, hs, by simp⟩)
    · next hs =>
      obtain ⟨n, _, hst, _⟩ := completeLoop_sampled 1 (by simpa using hs) singleDraw_gen h
      exact .inr (.inr (.inr (.inl ⟨_, hst, by simp, by simp⟩)))
  | fillBytes len =>
    simp only [exec, execFillBytes] at h
    split at h
    · next hs => exact .inr (.inl ⟨(next_inj h).symm, hs, by simp⟩)
    · next hs =>
      have := next_inj h; subst this
      exact .inr (.inr (.inr (.inr ⟨len, rfl, by simpa using hs, by simp only [fill_gen]⟩)))

/-- Everything a step can leave: nothing to do, a register write, a command run or refused by code, a reset. -/
theorem step_next_cases {s t : State} (h : step s = .next t) :
    (s.host = [] ∧ t = s) ∨
    ∃ a rest, s.host = a :: rest ∧
      ((∃ w, a = .writeArg0 w ∧ t = { s with host := rest, arg0 := w }) ∨
       (∃ w, a = .writeArg1 w ∧ t = { s with host := rest, arg1 := w }) ∨
       (∃ c i, a = .writeCmd c ∧ decode c s.arg0 s.arg1 = .ok i ∧ exec i { s with host := rest } = .next t) ∨
       (∃ c e, a = .writeCmd c ∧ decode c s.arg0 s.arg1 = .error e ∧ t = { s with host := rest, err := .illegalCmd }) ∨
       (a = .reset ∧ t = State.afterReset { s with host := rest }) ∨
       ∃ c, a = .resetDuring c ∧
         t = { State.afterReset { s with host := rest } with buf := s.abandonedBuffer c }) := by
  unfold step at h
  split at h
  · next hh => exact .inl ⟨hh, (next_inj h).symm⟩
  · next a rest hh =>
    refine .inr ⟨a, rest, hh, ?_⟩
    cases a with
    | writeArg0 w => exact .inl ⟨w, rfl, (next_inj h).symm⟩
    | writeArg1 w => exact .inr (.inl ⟨w, rfl, (next_inj h).symm⟩)
    | writeCmd c =>
      simp only [act, runCommand] at h
      split at h
      · next i hd => exact .inr (.inr (.inl ⟨c, i, rfl, hd, h⟩))
      · next e hd => exact .inr (.inr (.inr (.inl ⟨c, e, rfl, hd, (next_inj h).symm⟩)))
    | reset => exact .inr (.inr (.inr (.inr (.inl ⟨rfl, (next_inj h).symm⟩))))
    | resetDuring c => exact .inr (.inr (.inr (.inr (.inr ⟨c, rfl, (next_inj h).symm⟩))))

end Sys2Proof.Machine
end

