-- ==== Sys2Proof/Laws/Float.lean ====
section
/-! SUPPORT. Rounding against the numbers a format can hold (spec 00_scope.md R11, 42_unit_and_bounded.md R80): how
far a rounded quotient is from the exact one, and that rounding never crosses a representable number. Later
proofs cite these and never unfold `roundSig`. -/

namespace Sys2Proof.Machine

/-! The nearest integer. -/

theorem roundDiv_le {a b m : Nat} (hb : 0 < b) (h : a ≤ m * b) : roundDiv a b ≤ m := by
  have h1 : a / b ≤ m := Nat.div_le_of_le_mul (by rwa [Nat.mul_comm] at h)
  have h2 := Nat.div_add_mod a b
  unfold roundDiv
  rcases Nat.lt_or_eq_of_le h1 with hlt | heq
  · split
    · exact h1
    · split <;> omega
  · have : a % b = 0 := by
      rw [heq, Nat.mul_comm] at h2
      omega
    rw [if_pos (by omega), heq]

theorem le_roundDiv {a b m : Nat} (hb : 0 < b) (h : m * b ≤ a) : m ≤ roundDiv a b := by
  have h1 : m ≤ a / b := (Nat.le_div_iff_mul_le hb).mpr h
  unfold roundDiv
  split
  · exact h1
  · split <;> omega

/-- The nearest integer is at most half a unit away. -/
theorem roundDiv_near (a : Nat) {b : Nat} (hb : 0 < b) :
    2 * (roundDiv a b * b) ≤ 2 * a + b ∧ 2 * a ≤ 2 * (roundDiv a b * b) + b := by
  have h2 := Nat.div_add_mod a b
  have h3 := Nat.mod_lt a hb
  unfold roundDiv
  split
  · rw [Nat.mul_comm (a / b)]; omega
  · split
    · rw [Nat.add_mul, Nat.mul_comm (a / b)]; omega
    · rcases Nat.mod_two_eq_zero_or_one (a / b) with e | e <;> rw [e, Nat.add_mul, Nat.mul_comm (a / b)] <;> omega

theorem roundDiv_mono {a a' b : Nat} (h : a ≤ a') : roundDiv a b ≤ roundDiv a' b := by
  have h1 := Nat.div_le_div_right (c := b) h
  have h2 := Nat.div_add_mod a b
  have h3 := Nat.div_add_mod a' b
  unfold roundDiv
  rcases Nat.lt_or_eq_of_le h1 with hlt | heq
  · split_ifs <;> omega
  · rw [heq] at h2 ⊢
    split_ifs <;> omega

/-! The grid of `roundSig`. -/

/-- On its grid a quotient has fewer than `p + 1` bits. -/
theorem lt_grid {p a b : Nat} (hb : 0 < b) : a < 2 ^ p * (b * 2 ^ ulpExp p a b) := by
  have h1 : a / b < 2 ^ (Nat.log2 (a / b) + 1) := Nat.lt_log2_self
  have h2 : a / b < 2 ^ (p + ulpExp p a b) :=
    lt_of_lt_of_le h1 (Nat.pow_le_pow_right (by omega) (by unfold ulpExp; omega))
  have h3 := (Nat.div_lt_iff_lt_mul hb).mp h2
  calc a < 2 ^ (p + ulpExp p a b) * b := h3
    _ = 2 ^ p * (b * 2 ^ ulpExp p a b) := by rw [pow_add]; ring

/-- On a grid coarser than the integers a quotient has `p` bits. -/
theorem grid_le {p a b : Nat} (hp : 1 ≤ p) (hb : 0 < b) (he : 0 < ulpExp p a b) :
    2 ^ (p - 1) * (b * 2 ^ ulpExp p a b) ≤ a := by
  have h0 : a / b ≠ 0 := by
    intro h
    simp only [ulpExp, h, Nat.log2_zero] at he
    omega
  have h1 : 2 ^ Nat.log2 (a / b) ≤ a / b := Nat.log2_self_le h0
  have h2 : p - 1 + ulpExp p a b = Nat.log2 (a / b) := by unfold ulpExp at *; omega
  rw [← h2] at h1
  calc 2 ^ (p - 1) * (b * 2 ^ ulpExp p a b) = 2 ^ (p - 1 + ulpExp p a b) * b := by rw [pow_add]; ring
    _ ≤ a := (Nat.le_div_iff_mul_le hb).mp h1

/-- A rounded quotient is at most half a place of the grid away. -/
theorem roundSig_near (p a : Nat) {b : Nat} (hb : 0 < b) :
    2 * (roundSig p a b * b) ≤ 2 * a + b * 2 ^ ulpExp p a b ∧
    2 * a ≤ 2 * (roundSig p a b * b) + b * 2 ^ ulpExp p a b := by
  have h := roundDiv_near a (b := b * 2 ^ ulpExp p a b) (by positivity)
  have e : roundSig p a b * b = roundDiv a (b * 2 ^ ulpExp p a b) * (b * 2 ^ ulpExp p a b) := by
    unfold roundSig; ring
  rw [e]
  exact h

/-- The grid is no finer below a number of the format: a number at or above the quotient that the format
holds is a multiple of the grid, or the grid is the integers. -/
theorem roundSig_le {p a b m k : Nat} (hp : 1 ≤ p) (hb : 0 < b) (hm : m < 2 ^ p) (h : a ≤ m * 2 ^ k * b) :
    roundSig p a b ≤ m * 2 ^ k := by
  have hB : 0 < b * 2 ^ ulpExp p a b := by positivity
  by_cases hk : ulpExp p a b ≤ k
  · have e : m * 2 ^ k = m * 2 ^ (k - ulpExp p a b) * 2 ^ ulpExp p a b := by
      rw [Nat.mul_assoc, ← pow_add, Nat.sub_add_cancel hk]
    rw [e] at h ⊢
    refine Nat.mul_le_mul_right _ (roundDiv_le hB ?_)
    calc a ≤ _ := h
      _ = _ := by ring
  · have h1 := grid_le hp hb (p := p) (a := a) (by omega)
    have h2 : m * 2 ^ k * b < 2 ^ (p - 1) * (b * 2 ^ ulpExp p a b) := by
      have h3 : m * 2 ^ k < 2 ^ (p - 1) * 2 ^ ulpExp p a b := by
        rw [← pow_add, show p - 1 + ulpExp p a b = p + (ulpExp p a b - 1) by omega, pow_add]
        exact lt_of_lt_of_le (Nat.mul_lt_mul_of_pos_right hm (by positivity))
          (Nat.mul_le_mul_left _ (Nat.pow_le_pow_right (by omega) (by omega)))
      calc m * 2 ^ k * b < 2 ^ (p - 1) * 2 ^ ulpExp p a b * b := Nat.mul_lt_mul_of_pos_right h3 hb
        _ = _ := by ring
    omega

theorem le_roundSig {p a b m k : Nat} (hp : 1 ≤ p) (hb : 0 < b) (hm : m < 2 ^ p) (h : m * 2 ^ k * b ≤ a) :
    m * 2 ^ k ≤ roundSig p a b := by
  have hB : 0 < b * 2 ^ ulpExp p a b := by positivity
  by_cases hk : ulpExp p a b ≤ k
  · have e : m * 2 ^ k = m * 2 ^ (k - ulpExp p a b) * 2 ^ ulpExp p a b := by
      rw [Nat.mul_assoc, ← pow_add, Nat.sub_add_cancel hk]
    rw [e] at h ⊢
    refine Nat.mul_le_mul_right _ (le_roundDiv hB ?_)
    calc _ = _ := by ring
      _ ≤ a := h
  · have h1 := grid_le hp hb (p := p) (a := a) (by omega)
    have h3 : m * 2 ^ k ≤ 2 ^ (p - 1) * 2 ^ ulpExp p a b := by
      rw [← pow_add, show p - 1 + ulpExp p a b = p + (ulpExp p a b - 1) by omega, pow_add]
      exact Nat.mul_le_mul hm.le (Nat.pow_le_pow_right (by omega) (by omega))
    exact h3.trans (Nat.mul_le_mul_right _ (le_roundDiv hB h1))

/-- A quotient that the format holds is not rounded. -/
theorem roundSig_exact {p b m k : Nat} (hp : 1 ≤ p) (hb : 0 < b) (hm : m < 2 ^ p) :
    roundSig p (m * 2 ^ k * b) b = m * 2 ^ k :=
  le_antisymm (roundSig_le hp hb hm le_rfl) (le_roundSig hp hb hm le_rfl)

/-- A rounded quotient is a number of the format. -/
theorem roundSig_rep {p : Nat} (a : Nat) {b : Nat} (hp : 1 ≤ p) (hb : 0 < b) :
    ∃ m k, roundSig p a b = m * 2 ^ k ∧ m < 2 ^ p := by
  have hB : 0 < b * 2 ^ ulpExp p a b := by positivity
  have h := roundDiv_le hB (lt_grid (p := p) (a := a) hb).le
  rcases Nat.lt_or_eq_of_le h with h | h
  · exact ⟨_, _, rfl, h⟩
  · refine ⟨2 ^ (p - 1), ulpExp p a b + 1, ?_, Nat.pow_lt_pow_right (by omega) (by omega)⟩
    unfold roundSig
    rw [h, ← pow_add, ← pow_add]
    congr 1
    omega

/-- Rounding keeps the order of quotients over one divisor. -/
theorem roundSig_mono {p a a' b : Nat} (hp : 1 ≤ p) (hb : 0 < b) (h : a ≤ a') :
    roundSig p a b ≤ roundSig p a' b := by
  have hee : ulpExp p a b ≤ ulpExp p a' b := by
    have h5 : Nat.log2 (a / b) ≤ Nat.log2 (a' / b) := by
      rcases Nat.eq_zero_or_pos (a / b) with hz | hz
      · simp [hz]
      · have h6 := Nat.div_le_div_right (c := b) h
        exact (Nat.le_log2 (by omega)).mpr ((Nat.log2_self_le (by omega)).trans h6)
    unfold ulpExp
    omega
  rcases Nat.lt_or_eq_of_le hee with hlt | heq
  · have h1 : roundSig p a b ≤ 2 ^ (p - 1) * 2 ^ (ulpExp p a b + 1) := by
      refine roundSig_le hp hb (Nat.pow_lt_pow_right (by omega) (by omega)) ?_
      rw [← pow_add, show p - 1 + (ulpExp p a b + 1) = p + ulpExp p a b by omega, pow_add]
      exact (lt_grid hb).le.trans (by rw [Nat.mul_assoc, Nat.mul_comm b])
    have h2 := grid_le (a := a') hp hb (by omega)
    refine h1.trans (le_roundSig hp hb (Nat.pow_lt_pow_right (by omega) (by omega)) (le_trans ?_ h2))
    rw [Nat.mul_assoc, Nat.mul_comm b]
    exact Nat.mul_le_mul_left _ (Nat.mul_le_mul_right _ (Nat.pow_le_pow_right (by omega) hlt))
  · unfold roundSig
    rw [heq]
    exact Nat.mul_le_mul_right _ (roundDiv_mono h)

/-! Products and quotients of floats. -/

/-- What a product rounds, in units of the format (R11). -/
theorem mul64_mag (x y : F64) : (mul64 x y).mag = roundSig 53 (x.mag * y.mag) F64.unit := rfl

/-- What a quotient rounds, in units of the format (R11). -/
theorem div64_mag (x y : F64) : (div64 x y).mag = roundSig 53 (x.mag * F64.unit) y.mag := rfl

/-- The magnitude of an integer held as a float. -/
theorem f64OfInt_mag (n : Int) : (f64OfInt n).mag = n.natAbs * F64.unit := rfl

theorem F64.unit_pos : 0 < F64.unit := by
  unfold F64.unit
  positivity

/-- The unit as a power of two with its exponent hidden: Lean's tactics do not terminate on `2 ^ 1074` written out. -/
theorem F64.unit_split {j : Nat} (hj : j ≤ 1074) : ∃ q, q + j = 1074 ∧ F64.unit = 2 ^ q * 2 ^ j := by
  obtain ⟨q, hq⟩ : ∃ q, 1074 = q + j := ⟨1074 - j, by omega⟩
  exact ⟨q, hq.symm, by unfold F64.unit; rw [hq, pow_add]⟩

/-- An integer below `2^53` times the unit is held by binary64. -/
theorem roundSig_int {x b : Nat} (hb : 0 < b) (hx : x < 2 ^ 53) :
    roundSig 53 (x * F64.unit * b) b = x * F64.unit := by
  obtain ⟨q, -, hU⟩ := F64.unit_split (j := 0) (by omega)
  rw [hU, pow_zero, Nat.mul_one]
  exact roundSig_exact (by norm_num) hb hx

end Sys2Proof.Machine
end

