-- ==== Sys2Proof/Laws/Loop.lean ====
section
/-! SUPPORT. The bound of the rejection loops is exact (log entry 5): there are fewer generators than the bound, so a
loop that rejects that many draws in a row has come back to a generator it was at before, and the first accepted
draw, if there is one, comes before the bound (spec 70_reset_and_hazards.md R140). -/

namespace Sys2Proof.Machine

/-- A generator as a tuple of bounded numbers. -/
def Gen.tuple (g : Gen) : Bool × Fin (2 ^ 32) × Bool × (Fin 56 → Fin (2 ^ 32)) × Fin 56 × Fin 56 :=
  (g.seeded, g.seed.toFin, g.init, fun i => (readT g.table i).toFin, g.indexA, g.indexB)

theorem Gen.tuple_injective : Function.Injective Gen.tuple := by
  intro g h e
  obtain ⟨a, b, c, t, x, y⟩ := g
  obtain ⟨a', b', c', t', x', y'⟩ := h
  simp only [Gen.tuple, Prod.mk.injEq] at e
  obtain ⟨h1, h2, h3, h4, h5, h6⟩ := e
  have h7 : t = t' := table_ext fun i => by
    have := congrFun h4 i
    exact BitVec.eq_of_toFin_eq this
  rw [h1, BitVec.eq_of_toFin_eq h2, h3, h7, h5, h6]

/-- There are fewer generators than the bound. -/
theorem numGenerators_lt : 2 * (2 ^ 32 * (2 * ((2 ^ 32) ^ 56 * (56 * 56)))) < redrawBound := by
  unfold redrawBound
  norm_num

/-- Among more draws than there are generators, two start at the same generator. -/
theorem exists_repeat {α : Type} (draw : Gen → α × Gen) (g : Gen) {n : Nat} (hn : redrawBound ≤ n) :
    ∃ i j, i < j ∧ j ≤ n ∧ afterDraws draw i g = afterDraws draw j g := by
  have hc : Fintype.card (Bool × Fin (2 ^ 32) × Bool × (Fin 56 → Fin (2 ^ 32)) × Fin 56 × Fin 56) <
      Fintype.card (Fin (n + 1)) := by
    rw [Fintype.card_prod, Fintype.card_prod, Fintype.card_prod, Fintype.card_prod, Fintype.card_prod,
      Fintype.card_fun, Fintype.card_fin, Fintype.card_fin, Fintype.card_fin, Fintype.card_bool]
    exact Nat.lt_succ_of_lt (lt_of_lt_of_le numGenerators_lt hn)
  obtain ⟨x, y, hne, e⟩ :=
    Fintype.exists_ne_map_eq_of_card_lt (fun k : Fin (n + 1) => (afterDraws draw k.val g).tuple) hc
  have e' := Gen.tuple_injective e
  rcases lt_or_gt_of_ne (fun h => hne (Fin.ext h)) with h | h
  · exact ⟨x, y, h, Nat.le_of_lt_succ y.isLt, e'⟩
  · exact ⟨y, x, h, Nat.le_of_lt_succ x.isLt, e'.symm⟩

/-- The first accepted draw comes before the bound. -/
theorem FirstAccepted.lt_redrawBound {α : Type} {draw : Gen → α × Gen} {accept : α → Bool} {n : Nat} {g : Gen}
    (h : FirstAccepted draw accept n g) : n < redrawBound := by
  by_contra hn
  obtain ⟨i, j, hij, hjn, e⟩ := exists_repeat draw g (Nat.le_of_not_lt hn)
  have h1 : nthDraw draw (i + (n - j)) g = nthDraw draw n g := by
    conv_rhs => rw [← Nat.add_sub_cancel' hjn]
    rw [nthDraw_add, nthDraw_add, e]
  have h2 := h.2 (i + (n - j)) (by omega)
  rw [h1, h.1] at h2
  cases h2

/-- A draw that is accepted has a first accepted draw at or before it. -/
theorem exists_firstAccepted {α : Type} {draw : Gen → α × Gen} {accept : α → Bool} {n : Nat} {g : Gen}
    (h : accept (nthDraw draw n g) = true) : ∃ k, k ≤ n ∧ FirstAccepted draw accept k g := by
  classical
  have hex : ∃ k, accept (nthDraw draw k g) = true := ⟨n, h⟩
  refine ⟨Nat.find hex, Nat.find_min' hex h, Nat.find_spec hex, fun k hk => ?_⟩
  cases hb : accept (nthDraw draw k g)
  · rfl
  · exact absurd hb (Nat.find_min hex hk)

end Sys2Proof.Machine
end

