-- ==== Sys2Proof/Laws/PerInstr.lean ====
section
/-! SUPPORT. Statements made for every command, one lemma for each constructor. -/

namespace Sys2Proof.Laws.CodeDecodesToItsRow

/-- The code the assembler gives a command selects that command's row, whatever the operand registers hold
(spec 30_encoding.md R52, R46). -/
def Statement (i : Instr) : Prop :=
  ∀ a0 a1 : DWord, ∃ j, decode (encode i).cmd a0 a1 = .ok j ∧ j.mnemonic = i.mnemonic

theorem seed (s : Int) : Statement (.seed s) := fun _ _ => ⟨_, rfl, rfl⟩
theorem nextRaw : Statement .nextRaw := fun _ _ => ⟨_, rfl, rfl⟩
theorem sampleUnit : Statement .sampleUnit := fun _ _ => ⟨_, rfl, rfl⟩
theorem nextMax (hi : Int) : Statement (.nextMax hi) := fun _ _ => ⟨_, rfl, rfl⟩
theorem nextRange (lo hi : Int) : Statement (.nextRange lo hi) := fun _ _ => ⟨_, rfl, rfl⟩
theorem nextInt64 : Statement .nextInt64 := fun _ _ => ⟨_, rfl, rfl⟩
theorem nextInt64Range (lo hi : Int) : Statement (.nextInt64Range lo hi) := fun _ _ => ⟨_, rfl, rfl⟩
theorem nextSingle : Statement .nextSingle := fun _ _ => ⟨_, rfl, rfl⟩
theorem fillBytes (len : Nat) : Statement (.fillBytes len) := fun _ _ => ⟨_, rfl, rfl⟩

end Sys2Proof.Laws.CodeDecodesToItsRow
end

