-- ==== Sys2Proof/Tests/Slice0.lean ====
section
/-! SUPPORT. The model's own tests, expected values from spec 95_test_vectors.md or written out from the rules named,
and a witness for each statement that has hypotheses. -/

namespace Sys2Proof.Tests

open Sys2Proof Sys2Proof.Machine

/-! ## Small states -/

/-- Just after `SEED v` on the reset machine. -/
def seededState (v : Int) : State :=
  { State.reset with gen := { State.reset.gen with seeded := true, seed := wrap32 v } }

/-- Words written into a table from index `i` up. -/
def putWords : List Int → Nat → Table → Table
  | [], _, t => t
  | r :: rs, i, t => putWords rs (i + 1) (writeT t (Fin.ofNat 56 i) (wrap32 r))

/-- An initialised generator, cursors at 0 and 21, whose next raw samples are `rs` (at most 21 of them). -/
def drawingGen (rs : List Int) : Gen :=
  { seeded := true, seed := 0, init := true, table := putWords rs 1 (Vector.replicate 56 0), indexA := 0, indexB := 21 }

def drawing (rs : List Int) : State := { State.reset with gen := drawingGen rs }

/-- A state whose host is about to take one action. -/
def acting (s : State) (a : HostAction) : State := { s with host := [a] }

def nextState : Result → Option State
  | .next t => some t
  | _ => none

def resOf (r : Result) : Option DWord := (nextState r).map (·.res)
def statusOf (r : Result) : Option Byte := (nextState r).map (·.status)
def bufOf (r : Result) : Option Memory := (nextState r).map (·.buf)
def cursorsOf (r : Result) : Option (Cursor × Cursor) := (nextState r).map fun t => (t.gen.indexA, t.gen.indexB)

/-! ## Well-formedness: one ill-formed command for each check -/

theorem test_wf_seed : (Instr.seed 2147483648).wf = false ∧ (Instr.seed (-2147483649)).wf = false := by decide
theorem test_wf_nextMax : (Instr.nextMax 2147483648).wf = false ∧ (Instr.nextMax (-2147483649)).wf = false := by decide
theorem test_wf_nextRange_lo : (Instr.nextRange (-2147483649) 0).wf = false := by decide
theorem test_wf_nextRange_hi : (Instr.nextRange 0 2147483648).wf = false := by decide
theorem test_wf_nextInt64Range_lo : (Instr.nextInt64Range (-9223372036854775809) 0).wf = false := by decide
theorem test_wf_nextInt64Range_hi : (Instr.nextInt64Range 0 9223372036854775808).wf = false := by decide
theorem test_wf_fillBytes : (Instr.fillBytes 4294967296).wf = false := by decide

/-! ## Decoding: the code byte bit by bit (R52), the operand registers as R48 to R50 lay them out -/

theorem test_decode_seed : decode 0b00000001#8 0xFFFFFFFF80000000#64 7#64 = .ok (.seed (-2147483648)) := by decide
theorem test_decode_nextRaw : decode 0b00000010#8 5#64 7#64 = .ok .nextRaw := by decide
theorem test_decode_sampleUnit : decode 0b00000011#8 5#64 7#64 = .ok .sampleUnit := by decide
theorem test_decode_nextMax : decode 0b00000100#8 0xFFFFFFFFFFFFFFFF#64 0#64 = .ok (.nextMax (-1)) := by decide
theorem test_decode_nextRange : decode 0b00000101#8 0x0000000080000000#64 0x123456787FFFFFFF#64 =
    .ok (.nextRange (-2147483648) 2147483647) := by decide
theorem test_decode_nextInt64 : decode 0b00000110#8 5#64 7#64 = .ok .nextInt64 := by decide
theorem test_decode_nextInt64Range : decode 0b00000111#8 0xFFFFFFFFFFFFFFCE#64 0x32#64 =
    .ok (.nextInt64Range (-50) 50) := by decide
theorem test_decode_nextSingle : decode 0b00001000#8 5#64 7#64 = .ok .nextSingle := by decide
theorem test_decode_fillBytes : decode 0b00001001#8 0xFFFFFFFFFFFFFFFF#64 0#64 = .ok (.fillBytes 4294967295) := by decide
theorem test_decode_illegal : ∀ c : Byte, (c = 0#8 ∨ 10 ≤ c.toNat) ↔ decode c 0#64 0#64 = .error (.illegalCode c) := by
  decide +kernel

/-- The values of program P5: the three values the host writes for a line (R56). -/
theorem test_encode : encode (.nextRange (-50) 50) = ⟨0x05#8, some 0x00000000FFFFFFCE#64, some 0x32#64⟩ ∧
    encode (.nextInt64Range (-9223372036854775808) 9223372036854775807) =
      ⟨0x07#8, some 0x8000000000000000#64, some 0x7FFFFFFFFFFFFFFF#64⟩ := by decide

/-! ## One command each -/

/-- V2.5, V6.3 of the walk: `T[55]` after step 2 for the seed `MIN`. -/
theorem test_seed_firstWord : (firstWord (wrap32 (-2147483648))).toInt = -1985680249 ∧
    (firstWord (wrap32 161803399)).toInt = -1 := by decide

/-- `SEED -2147483648` on an engine with an error standing: `STATUS` 0x01, the seed bound. -/
theorem test_seed : statusOf (exec (.seed (-2147483648)) { State.reset with err := .illegalCmd }) = some 0x01#8 ∧
    (nextState (exec (.seed (-2147483648)) State.reset)).map (fun t => t.gen.seed) = some 0x80000000#32 := by decide

/-- V3.1, draw 1 of seed 0, with the initialisation; V3.10, the cursors. -/
theorem test_nextRaw_seed0 : resOf (exec .nextRaw (seededState 0)) = some 0x000000005CF58A1A#64 ∧
    cursorsOf (exec .nextRaw (seededState 0)) = some (1, 22) := by decide +kernel

/-- V3.7, draw 1 of a seed whose initialisation wraps both ways. -/
theorem test_nextRaw_wrapping_seed : resOf (exec .nextRaw (seededState 2000000000)) = some 224431583#64 := by
  decide +kernel

/-- V5.5: multiplication by the reciprocal, not division. -/
theorem test_sampleUnit : resOf (exec .sampleUnit (drawing [65212616])) = some 0x3F9F1886403E310C#64 := by decide +kernel

/-- V5.1: the largest unit sample. -/
theorem test_sampleUnit_max : resOf (exec .sampleUnit (drawing [2147483646])) = some 0x3FEFFFFFFFC00000#64 := by
  decide +kernel

/-- V5.4: the smallest raw sample whose scaled value is one less. -/
theorem test_nextMax : resOf (exec (.nextMax 2147483647) (drawing [4194305])) = some 4194304#64 := by decide +kernel

/-- V5.3: `NEXT_MAX 0` gives 0 and still draws. -/
theorem test_nextMax_zero : resOf (exec (.nextMax 0) (drawing [1559595546])) = some 0#64 ∧
    cursorsOf (exec (.nextMax 0) (drawing [1559595546])) = some (1, 22) := by decide +kernel

/-- V6.2, the widest single-sample range. -/
theorem test_nextRange_single :
    resOf (exec (.nextRange (-2147483648) (-1)) (drawing [1559595546])) = some (BitVec.ofInt 64 (-587888102)) := by
  decide +kernel

/-- V6.4, the large-range path. -/
theorem test_nextRange_large : resOf (exec (.nextRange (-2147483648) 2147483647) (drawing [1559595546, 1755192844])) =
    some (BitVec.ofInt 64 (-1559595548)) := by decide +kernel

/-- V7.2, seed 0; the draws are those of V3.1. -/
theorem test_nextInt64 : resOf (exec .nextInt64 (drawing [1559595546, 1755192844, 1649316166])) =
    some 0x624E9689E1F73D62#64 := by decide +kernel

/-- V7.5: three largest draws compose to all ones, rejected; the next three give a zero. -/
theorem test_nextInt64_rejects : resOf (exec .nextInt64 (drawing [2147483646, 2147483646, 2147483646])) = some 0#64 ∧
    cursorsOf (exec .nextInt64 (drawing [2147483646, 2147483646, 2147483646])) = some (6, 27) := by decide +kernel

/-- V7.3, worked: the first composition gives 12, rejected, the second 8. -/
theorem test_nextInt64Range : resOf (exec (.nextInt64Range 0 10)
    (drawing [1559595546, 1755192844, 1649316166, 1198642031, 442452829, 1200195957])) = some 8#64 := by decide +kernel

/-- V7.3, the widest range: the sum wraps. -/
theorem test_nextInt64Range_wide : resOf (exec (.nextInt64Range (-9223372036854775808) 9223372036854775807)
    (drawing [1559595546, 1755192844, 1649316166])) = some 4944157528837487301#64 := by decide +kernel

/-- V8.2, seed 24917099: the largest raw sample is rejected. -/
theorem test_nextSingle : resOf (exec .nextSingle (drawing [2147483646, 1203149234])) = some 0x3F0F6D33#64 := by
  decide +kernel

/-- V8.1: the last value accepted, and the tie just above it. -/
theorem test_nextSingle_tie : resOf (exec .nextSingle (drawing [2147483583, 2147483582])) = some 0x3F7FFFFF#64 := by
  decide +kernel

/-- V8.3, seed 0. -/
theorem test_fillBytes : bufOf (exec (.fillBytes 3) (drawing [1559595546, 1755192844, 1649316166])) =
    some [(0, 0x1A#8), (1, 0x0C#8), (2, 0x46#8)] := by decide +kernel

/-- R37, R109: `FILL_BYTES 0` draws nothing, and its sequence has no byte. -/
theorem test_fillBytes_zero : bufOf (exec (.fillBytes 0) { drawing [5] with buf := [(0, 1#8)] }) = some [] ∧
    cursorsOf (exec (.fillBytes 0) (drawing [5])) = some (0, 21) := by decide +kernel

/-! ## Errors, STATUS, the host's side (V9.1) -/

theorem test_illegal_unseeded : statusOf (step (acting State.reset (.writeCmd 0x00#8))) = some 0x06#8 := by decide
theorem test_illegal_seeded : statusOf (step (acting (seededState 0) (.writeCmd 0x0A#8))) = some 0x07#8 := by decide
theorem test_not_seeded_first : statusOf (exec (.nextRange 5 4) State.reset) = some 0x04#8 ∧
    statusOf (exec (.fillBytes 0) State.reset) = some 0x04#8 := by decide
theorem test_invalid_range : statusOf (exec (.nextRange 5 4) (seededState 0)) = some 0x03#8 ∧
    statusOf (exec (.nextMax (-1)) (seededState 0)) = some 0x03#8 ∧
    statusOf (exec (.nextInt64Range 1 0) (seededState 0)) = some 0x03#8 := by decide
theorem test_host_write : (nextState (step (acting State.reset (.writeArg1 9#64)))).map (·.arg1) = some 9#64 := by decide
theorem test_reset_event : statusOf (step (acting (seededState 5) .reset)) = some 0x00#8 := by decide

/-- A row's word is the code byte; the step runs it. -/
theorem test_withFetchWord : (nextState (step (State.reset.withFetchWord 8 1))).map (fun t => t.gen.seeded) = some true ∧
    statusOf (step (State.reset.withFetchWord 8 2)) = some 0x04#8 := by decide

/-! ## Witnesses: for each statement with hypotheses, a state and operands that meet them, clause by clause -/

theorem witness_DecodeUndoesEncode : (Instr.nextRange (-2147483648) 2147483647).wf = true ∧
    (Instr.nextInt64Range (-9223372036854775808) 9223372036854775807).wf = true ∧
    (Instr.fillBytes 4294967295).wf = true := by decide

theorem witness_DecodedCommandsAreWellFormed : decode 0x01#8 0x80000000#64 0#64 = .ok (.seed (-2147483648)) := by decide

theorem witness_UnusedOperandBitsAreIgnored : 0x02#8 ∈ [0x02#8, 0x03#8, 0x06#8, 0x08#8] ∧
    (0x09#8 ∈ [0x01#8, 0x04#8, 0x09#8] ∧ (0xFFFFFFFF00000007#64).toNat % 2 ^ 32 = (7#64).toNat % 2 ^ 32) ∧
    (0x100000005#64).toNat % 2 ^ 32 = (5#64).toNat % 2 ^ 32 := by decide

theorem witness_StepRunsTheDecodedCommand :
    (acting (seededState 0) (.writeCmd 0x02#8)).host = .writeCmd 0x02#8 :: [] ∧
    decode 0x02#8 (acting (seededState 0) (.writeCmd 0x02#8)).arg0 0#64 = .ok .nextRaw := by decide

theorem witness_IllegalCodeChangesOnlyErr : (acting State.reset (.writeCmd 0x00#8)).host = .writeCmd 0x00#8 :: [] ∧
    (acting (seededState 0) (.writeCmd 0x0A#8)).host = .writeCmd 0x0A#8 :: [] ∧
    (0x00#8).toNat = 0 ∧ 10 ≤ (0x0A#8).toNat ∧ 10 ≤ (0xFF#8).toNat := by decide

theorem witness_HostWritesAndIdle : (acting State.reset (.writeArg0 1#64)).host = .writeArg0 1#64 :: [] ∧
    (acting State.reset (.writeArg1 1#64)).host = .writeArg1 1#64 :: [] ∧ State.reset.host = [] := by decide

theorem witness_AssembledLineRunsItsCommand : (Instr.nextRange (-50) 50).wf = true ∧
    ({ seededState 0 with host := hostActions (.nextRange (-50) 50) ++ [HostAction.reset] } : State).host =
      hostActions (.nextRange (-50) 50) ++ [HostAction.reset] := by decide

theorem witness_ResetLeavesTheEngineUnseeded : (acting (seededState 5) .reset).host = .reset :: [] := by decide

theorem witness_ResetDuringACommandAbandonsIt :
    (acting (seededState 5) (.resetDuring 0x09#8)).host = .resetDuring 0x09#8 :: [] ∧
    decode 0x09#8 0#64 0#64 = .ok (.fillBytes 0) ∧ (seededState 5).gen.seeded = true ∧
    (acting State.reset (.resetDuring 0x02#8)).host = .resetDuring 0x02#8 :: [] ∧ State.reset.gen.seeded = false := by
  decide

/-- The clause of a command that is no byte fill, on a seeded engine. -/
theorem witness_ResetDuringACommandAbandonsIt_other :
    (acting (seededState 5) (.resetDuring 0x02#8)).host = .resetDuring 0x02#8 :: [] ∧
    (seededState 5).gen.seeded = true ∧
    ∀ len, decode 0x02#8 (seededState 5).arg0 (seededState 5).arg1 ≠ .ok (.fillBytes len) :=
  ⟨rfl, rfl, fun _ => by simp [decode]⟩

theorem witness_UnseededEngineRefusesAllButSeed : State.reset.gen.seeded = false ∧ ∀ v, Instr.nextMax (-1) ≠ .seed v :=
  ⟨rfl, fun _ => by simp⟩

theorem witness_InvalidRangeByExactlyThreeConditions : (seededState 0).gen.seeded = true ∧
    (∃ hi, Instr.nextMax (-1) = .nextMax hi ∧ hi < 0) ∧ (∃ lo hi, Instr.nextRange 1 0 = .nextRange lo hi ∧ hi < lo) ∧
    (∃ lo hi, Instr.nextInt64Range 1 0 = .nextInt64Range lo hi ∧ hi < lo) ∧
    ∃ t, exec (.nextMax (-1)) (seededState 0) = .next t ∧ t.err = .invalidRange :=
  ⟨rfl, ⟨-1, rfl, by decide⟩, ⟨1, 0, rfl, by decide⟩, ⟨1, 0, rfl, by decide⟩, ⟨_, rfl, rfl⟩⟩

theorem witness_ErrorsChangeNothingElse : ∃ t, exec .nextRaw State.reset = .next t ∧ t.err ≠ .ok :=
  ⟨_, rfl, by decide⟩

theorem witness_SeedBindsTheSeed : (Instr.seed (-2147483648)).wf = true ∧ (Instr.seed 2147483647).wf = true := by decide

theorem witness_SeedForgetsThePast : ∃ s' t',
    exec (.seed 7) (drawing [5, 6]) = .next s' ∧ exec (.seed 7) (seededState 3) = .next t' ∧
    (drawing [5, 6]).arg0 = (seededState 3).arg0 ∧ (drawing [5, 6]).arg1 = (seededState 3).arg1 ∧
    (drawing [5, 6]).res = (seededState 3).res ∧ (drawing [5, 6]).buf = (seededState 3).buf ∧
    (drawing [5, 6]).host = (seededState 3).host ∧ (drawing [5, 6]).freeCount = (seededState 3).freeCount :=
  ⟨_, _, rfl, rfl, rfl, rfl, rfl, rfl, rfl, rfl⟩

theorem witness_OnlyTheMagnitudeOfTheSeedMatters :
    (abs32 (wrap32 42)).toInt = (abs32 (wrap32 (-42))).toInt ∧
    (abs32 (wrap32 (-2147483648))).toInt = (abs32 (wrap32 2147483647)).toInt := by decide

theorem witness_WalkStoresTheRecurrence : 1 ≤ 1 ∧ 1 ≤ 54 ∧ 54 ≤ 54 := by decide

theorem witness_MixingPassIsInPlace : (24 : Cursor) ≠ 0 ∧ (24 : Cursor).val ≤ 24 ∧ (25 : Cursor) ≠ 0 ∧
    ¬ (25 : Cursor).val ≤ 24 := by decide

theorem witness_SmallSeedsInitialiseInRange : (abs32 (seededState (-161803398)).gen.seed).toInt ≤ 161803398 := by decide

theorem witness_tableInRange : (drawing [2147483646]).gen.init = true ∧ (drawing [2147483646]).gen.TableInRange := by
  unfold Gen.TableInRange InRange
  decide +kernel

theorem witness_EverySeedInitialisesInRange :
    (drawing [2147483646]).gen.init = true ∧ (drawing [2147483646]).gen.TableInRange := witness_tableInRange

theorem witness_CursorsAfterDraws : (seededState 0).gen.init = false ∧ 1 ≤ 1 := by decide

/-- At the wrap of both cursors in turn, and with a difference of `MAX` (R75's first branch). -/
theorem witness_RawSampleIsTheAdjustedDifference :
    (seededState 0).gen.init = false ∧
    ({ drawingGen [] with indexA := 55, indexB := 21 }.init = true ∧
      (1 : Cursor).val = (if (55 : Cursor).val + 1 ≥ 56 then 1 else (55 : Cursor).val + 1) ∧
      (22 : Cursor).val = (if (21 : Cursor).val + 1 ≥ 56 then 1 else (21 : Cursor).val + 1)) ∧
    (sub32 ((drawingGen [2147483647]).read 1) ((drawingGen [2147483647]).read 22)).toInt = MAX := by decide +kernel

theorem witness_RawSampleStaysInRange :
    (drawing [2147483646]).gen.init = true ∧ (drawing [2147483646]).gen.TableInRange := witness_tableInRange

theorem witness_LaggedFibonacciRecurrence : (drawing [2147483646]).gen.init = true ∧
    (drawing [2147483646]).gen.indexA = 0 ∧ (drawing [2147483646]).gen.indexB = 21 ∧
    (drawing [2147483646]).gen.TableInRange ∧ 1 ≤ 1 :=
  ⟨rfl, rfl, rfl, witness_tableInRange.2, by decide⟩

theorem witness_NextRawReturnsTheSample : State.reset.gen.seeded = false ∧ (drawing [2147483646]).gen.seeded = true ∧
    InRange (rawSample (drawing [2147483646]).gen).1 := by
  unfold InRange
  decide +kernel

/-- The tie `5 / 1` held with two bits is rounded to 4. -/
theorem witness_RoundingIsToNearestEven : 1 ≤ 2 ∧ 1 ≤ 1 ∧ 3 < 2 ^ 2 ∧
    2 * |(roundSig 2 5 1 : Int) * 1 - 5| = (1 * 2 ^ ulpExp 2 5 1 : Nat) ∧ roundSig 2 5 1 = 4 := by decide +kernel

theorem witness_UnitSampleIsIncreasingAndBelowOne : 0 ≤ (2147483645#32).toInt ∧
    (2147483645#32).toInt < (2147483646#32).toInt ∧ (2147483646#32).toInt < MAX ∧ InRange 2147483646#32 := by
  unfold InRange
  decide

theorem witness_SampleUnitReturnsTheProduct : (seededState 0).gen.seeded = true := by decide

theorem witness_ScaledIntegerIsBelowTheRange : (unitOf 2147483646#32).neg = false ∧
    (unitOf 2147483646#32).mag * 2 ^ 32 ≤ (2 ^ 32 - 1) * F64.unit ∧ (1 : Int) ≤ 1 ∧ (4294967295 : Int) ≤ 2 ^ 32 - 1 := by
  decide +kernel

theorem witness_NextMaxReturnsTheScaledSample : (drawing [2147483646]).gen.seeded = true ∧
    (Instr.nextMax 0).wf = true ∧ (Instr.nextMax 2147483647).wf = true ∧
    InRange (rawSample (drawing [2147483646]).gen).1 := by
  unfold InRange
  decide +kernel

theorem witness_LargeSampleIsOneDivision : InRange 0#32 ∧ InRange 2147483646#32 := by
  unfold InRange
  decide

/-- Both sides of the path limit, the empty range and the widest one. -/
theorem witness_NextRangeReturnsTheOffsetSample : (drawing [2147483646, 1]).gen.seeded = true ∧
    ((Instr.nextRange 5 5).wf = true ∧ (Instr.nextRange 0 2147483647).wf = true ∧ 2147483647 - 0 ≤ MAX) ∧
    ((Instr.nextRange (-1) 2147483647).wf = true ∧ MAX < 2147483647 - (-1)) ∧
    (Instr.nextRange (-2147483648) 2147483647).wf = true ∧
    InRange (nthDraw rawSample 0 (drawing [2147483646, 1]).gen) ∧
    InRange (nthDraw rawSample 1 (drawing [2147483646, 1]).gen) := by
  unfold InRange
  decide +kernel

theorem witness_CompositionLayout : InRange (nthDraw rawSample 0 (drawingGen [1, 2, 2147483646])) ∧
    InRange (nthDraw rawSample 1 (drawingGen [1, 2, 2147483646])) ∧
    InRange (nthDraw rawSample 2 (drawingGen [1, 2, 2147483646])) := by
  unfold InRange
  decide +kernel

theorem witness_CeilLog2IsTheLeastExponent : 1 ≤ 1 ∧ 1025 ≤ 2 ^ 11 := by decide

/-- The first 64-bit draw is rejected, the second accepted. -/
theorem witness_NextInt64ReturnsTheFirstAccepted : State.reset.gen.seeded = false ∧
    (drawing [2147483646, 2147483646, 2147483646]).gen.seeded = true ∧
    (nthDraw uint64Draw 1 (drawing [2147483646, 2147483646, 2147483646]).gen).toNat / 2 ≠ 2 ^ 63 - 1 ∧
    ∀ k, k < 1 → (nthDraw uint64Draw k (drawing [2147483646, 2147483646, 2147483646]).gen).toNat / 2 = 2 ^ 63 - 1 := by
  decide +kernel

theorem witness_DegenerateInt64RangeDrawsNothing : (seededState 0).gen.seeded = true ∧
    (Instr.nextInt64Range 5 5).wf = true ∧ (5 : Int) ≤ 5 + 1 ∧
    (Instr.nextInt64Range 9223372036854775806 9223372036854775807).wf = true ∧
    (9223372036854775807 : Int) ≤ 9223372036854775806 + 1 := by decide

/-- Range 10, four bits; the first draw is rejected, the second accepted. -/
theorem witness_NextInt64RangeReturnsTheFirstBelow :
    (drawing [2147483646, 2147483646, 2147483646]).gen.seeded = true ∧
    (Instr.nextInt64Range 0 10).wf = true ∧ (0 : Int) + 1 < 10 ∧ (2 ^ 4 : Int) ≥ 10 - 0 ∧ (2 ^ (4 - 1) : Int) < 10 - 0 ∧
    ((nthDraw uint64Draw 1 (drawing [2147483646, 2147483646, 2147483646]).gen).toNat / 2 ^ (64 - 4) : Int) < 10 - 0 ∧
    ∀ k, k < 1 →
      ¬ ((nthDraw uint64Draw k (drawing [2147483646, 2147483646, 2147483646]).gen).toNat / 2 ^ (64 - 4) : Int) < 10 - 0 := by
  decide +kernel

theorem witness_PowerOfTwoRangeTakesOneDraw : (seededState 0).gen.seeded = true ∧
    (Instr.nextInt64Range 7 (7 + 2 ^ 1)).wf = true ∧
    (Instr.nextInt64Range (-9223372036854775808) (-9223372036854775808 + 2 ^ 63)).wf = true := by decide

theorem witness_SingleRejectsExactlySixtyFourRawValues : (unitOf 2147483646#32).neg = false ∧
    (unitOf 2147483646#32).mag < F64.unit ∧ InRange 2147483583#32 ∧ InRange 2147483582#32 := by
  unfold InRange
  decide +kernel

/-- The first draw is rejected, the second accepted. -/
theorem witness_NextSingleReturnsTheFirstBelowOne : State.reset.gen.seeded = false ∧
    (drawing [2147483583, 2147483582]).gen.seeded = true ∧
    f32OfF64 (unitOf (nthDraw rawSample 1 (drawing [2147483583, 2147483582]).gen)) ≠ F32.one ∧
    (∀ k, k < 1 → f32OfF64 (unitOf (nthDraw rawSample k (drawing [2147483583, 2147483582]).gen)) = F32.one) ∧
    InRange (nthDraw rawSample 1 (drawing [2147483583, 2147483582]).gen) := by
  unfold InRange
  decide +kernel

theorem witness_FaultMeansTheLoopNeverEnds : (seededState 0).gen.seeded = true ∧
    (Instr.nextInt64Range 0 2).wf = true ∧ (0 : Int) + 1 < 2 := by decide

theorem witness_OtherCommandsAlwaysComplete : Instr.nextRaw ≠ .nextInt64 ∧ Instr.nextRaw ≠ .nextSingle ∧
    ∀ lo hi, Instr.nextRaw ≠ .nextInt64Range lo hi := ⟨by decide, by decide, fun _ _ => by simp⟩

theorem witness_FillBytesWritesOneByteADraw : State.reset.gen.seeded = false ∧ (seededState 0).gen.seeded = true ∧
    0 < 1 ∧ 1 ≤ 1 := by decide

theorem witness_FillBytesConcatenates : ∃ t u w, exec (.fillBytes 1) (drawing [3, 4]) = .next t ∧
    exec (.fillBytes 1) t = .next u ∧ exec (.fillBytes (1 + 1)) (drawing [3, 4]) = .next w ∧
    (drawing [3, 4]).gen.seeded = true := ⟨_, _, _, rfl, rfl, rfl, rfl⟩

theorem witness_DrawCounts : (∃ t, exec .nextRaw State.reset = .next t ∧ t.err ≠ .ok) ∧
    (∃ t, exec (.seed 1) State.reset = .next t) ∧ (drawing [3]).gen.seeded = true ∧
    (∃ t, exec .nextRaw (drawing [3]) = .next t) ∧ (∃ t, exec .sampleUnit (drawing [3]) = .next t) ∧
    (∃ t, exec (.nextMax 0) (drawing [3]) = .next t) ∧ (∃ t, exec (.nextRange 0 0) (drawing [3]) = .next t) ∧
    (∃ t, exec (.nextInt64Range 0 1) (drawing [3]) = .next t) ∧ (Instr.nextInt64Range 0 1).wf = true ∧
    (∃ b : Nat, 1 ≤ b ∧ (2 : Int) - 0 = 2 ^ b) ∧ (∃ t, exec (.fillBytes 0) (drawing [3]) = .next t) :=
  ⟨⟨_, rfl, by decide⟩, ⟨_, rfl⟩, rfl, ⟨_, rfl⟩, ⟨_, rfl⟩, ⟨_, rfl⟩, ⟨_, rfl⟩, ⟨_, rfl⟩, by decide, ⟨1, by decide, by decide⟩,
    ⟨_, rfl⟩⟩

/-- The three looping commands complete on a concrete state (their clauses of the draw counts). -/
theorem witness_DrawCounts_loops : (nextState (exec .nextInt64 (drawing [3]))).isSome = true ∧
    (nextState (exec (.nextInt64Range 0 2) (drawing [3]))).isSome = true ∧
    (nextState (exec .nextSingle (drawing [3]))).isSome = true := by decide +kernel

theorem witness_CommandsNeverWriteOperandsOrWordZero :
    ∃ t, exec .nextRaw (drawing [3]) = .next t ∧ ∀ v, Instr.nextRaw ≠ .seed v := ⟨_, rfl, fun _ => by simp⟩

theorem witness_ResultIsKeptByErrorsSeedAndFill : (∃ t, exec .nextRaw State.reset = .next t ∧ t.err ≠ .ok) ∧
    (∃ t, exec (.seed 1) State.reset = .next t) ∧ ∃ t, exec (.fillBytes 1) (drawing [3]) = .next t :=
  ⟨⟨_, rfl, by decide⟩, ⟨_, rfl⟩, ⟨_, rfl⟩⟩

theorem witness_OnlyFillBytesWritesTheBuffer :
    (∃ t, exec .nextRaw (drawing [3]) = .next t ∧ ∀ len, Instr.nextRaw ≠ .fillBytes len) ∧
    (∃ t, exec (.fillBytes 1) State.reset = .next t ∧ State.reset.gen.seeded = false) ∧
    ∃ t, exec (.fillBytes 0) (drawing [3]) = .next t ∧ (drawing [3]).gen.seeded = true ∧ 0 ≤ 0 :=
  ⟨⟨_, rfl, fun _ => by simp⟩, ⟨_, rfl, rfl⟩, ⟨_, rfl, rfl, by decide⟩⟩

theorem witness_EveryStepKeepsTheInvariant :
    ∃ t, (acting (drawing [3]) (.writeCmd 0x02#8)).Inv ∧ step (acting (drawing [3]) (.writeCmd 0x02#8)) = .next t :=
  ⟨_, ⟨⟨by decide, by decide⟩, (fun _ => by decide), (fun _ => rfl)⟩, rfl⟩

theorem witness_EveryStepKeepsTheTableInRange : ∃ t, (acting (drawing [2147483646]) (.writeCmd 0x02#8)).gen.TableInRange ∧
    step (acting (drawing [2147483646]) (.writeCmd 0x02#8)) = .next t :=
  ⟨_, witness_tableInRange.2, rfl⟩

/-- Two states that hold different tables and cursors while uninitialised, about to draw; and for the second
part the states of `witness_SeedForgetsThePast`. -/
theorem witness_StepsKeepStatesIndistinguishable :
    (acting (seededState 3) (.writeCmd 0x02#8)).SameFuture
      (acting { State.reset with gen := { drawingGen [5, 6] with seed := wrap32 3, init := false } } (.writeCmd 0x02#8)) :=
  ⟨⟨rfl, rfl, fun _ => rfl, (fun h => by cases h), (fun h => by cases h), (fun h => by cases h)⟩,
    rfl, rfl, rfl, rfl, rfl, rfl, rfl⟩

theorem witness_StepsKeepStatesIndistinguishable_seed : ∃ s' t',
    exec (.seed 7) (drawing [5, 6]) = .next s' ∧ exec (.seed 7) (seededState 3) = .next t' ∧
    (drawing [5, 6]).arg0 = (seededState 3).arg0 ∧ (drawing [5, 6]).arg1 = (seededState 3).arg1 ∧
    (drawing [5, 6]).res = (seededState 3).res ∧ (drawing [5, 6]).buf = (seededState 3).buf ∧
    (drawing [5, 6]).host = (seededState 3).host ∧ (drawing [5, 6]).freeCount = (seededState 3).freeCount :=
  witness_SeedForgetsThePast

end Sys2Proof.Tests
end

section
/-! Rounding to nearest, ties to even (spec 00_scope.md R11, 42_unit_and_bounded.md R80). The result is the nearest
multiple of the grid; a number of the format with a finer last place is at most `2 ^ (p - 1)` places of the grid,
and that grid point lies between it and the quotient. -/

namespace Sys2Proof.Machine

/-! The nearest integer. -/

/-- Twice the error is at most a unit, and any other multiple is a whole unit away from the chosen one. -/
theorem roundDiv_nearest (a m : Nat) {b : Nat} (hb : 0 < b) :
    |(roundDiv a b : Int) * b - a| ≤ |(m : Int) * b - a| := by
  obtain ⟨hlo, hhi⟩ := roundDiv_near a hb
  rcases eq_or_ne (m : Int) (roundDiv a b) with hm | hm
  · rw [hm]
  · have herr : 2 * |(roundDiv a b : Int) * b - a| ≤ b := by
      zify at hlo hhi
      rcases abs_cases ((roundDiv a b : Int) * b - a) with ⟨h, -⟩ | ⟨h, -⟩ <;> linarith
    have hgap : (b : Int) ≤ |(m : Int) * b - roundDiv a b * b| := by
      rw [← sub_mul, abs_mul, Nat.abs_cast]
      exact le_mul_of_one_le_left (Int.natCast_nonneg b) (Int.one_le_abs (sub_ne_zero.mpr hm))
    have htri := abs_sub_le ((m : Int) * b) a (roundDiv a b * b)
    rw [abs_sub_comm (a : Int)] at htri
    linarith

/-- A quotient half way between two integers goes to the even one. -/
theorem roundDiv_even_of_tie {a b : Nat} (hb : 0 < b) (h : 2 * |(roundDiv a b : Int) * b - a| = b) :
    roundDiv a b % 2 = 0 := by
  have hdiv : ((a / b : Nat) : Int) * b + (a % b : Nat) = a := by exact_mod_cast Nat.div_add_mod' a b
  have hlt := Nat.mod_lt a hb
  unfold roundDiv at h ⊢
  split_ifs at h ⊢ with hdown hup
  · rw [show ((a / b : Nat) : Int) * b - a = -(a % b : Nat) by linarith, abs_neg, Nat.abs_cast] at h
    omega
  · rw [show ((a / b + 1 : Nat) : Int) * b - a = (b : Int) - (a % b : Nat) by push_cast at hdiv ⊢; linarith,
      abs_of_nonneg (by omega)] at h
    omega
  · omega

/-! The grid of `roundSig`. -/

/-- The rounded quotient counted in places of the grid: the nearest integer, `ulpExp` doublings up. -/
theorem roundSig_mul_divisor (p a b : Nat) :
    (roundSig p a b : Int) * b = (roundDiv a (b * 2 ^ ulpExp p a b) : Int) * (b * 2 ^ ulpExp p a b : Nat) := by
  unfold roundSig
  push_cast
  ring

/-- No multiple of the grid is nearer than the rounded quotient. -/
theorem roundSig_nearest_on_grid (p a n : Nat) {b : Nat} (hb : 0 < b) :
    |(roundSig p a b : Int) * b - a| ≤ |((n * 2 ^ ulpExp p a b : Nat) : Int) * b - a| := by
  rw [roundSig_mul_divisor, show ((n * 2 ^ ulpExp p a b : Nat) : Int) * b = n * (b * 2 ^ ulpExp p a b : Nat) by push_cast; ring]
  exact roundDiv_nearest a n (by positivity)

/-- A number of the format finer than the grid is at most the grid's `2 ^ (p - 1)` places. -/
theorem format_le_of_lt_ulpExp {p a b m k : Nat} (hp : 1 ≤ p) (hm : m < 2 ^ p) (hk : k < ulpExp p a b) :
    m * 2 ^ k ≤ 2 ^ (p - 1) * 2 ^ ulpExp p a b := by
  rw [← pow_add, show p - 1 + ulpExp p a b = p + (ulpExp p a b - 1) by omega, pow_add]
  exact Nat.mul_le_mul hm.le (Nat.pow_le_pow_right (by omega) (by omega))

/-- No number of the format is nearer than the rounded quotient. -/
theorem roundSig_nearest {p a b m k : Nat} (hp : 1 ≤ p) (hb : 0 < b) (hm : m < 2 ^ p) :
    |(roundSig p a b : Int) * b - a| ≤ |((m * 2 ^ k : Nat) : Int) * b - a| := by
  rcases Nat.lt_or_ge k (ulpExp p a b) with hk | hk
  · have hfine : m * 2 ^ k * b ≤ 2 ^ (p - 1) * 2 ^ ulpExp p a b * b :=
      Nat.mul_le_mul_right b (format_le_of_lt_ulpExp hp hm hk)
    have hgrid : 2 ^ (p - 1) * 2 ^ ulpExp p a b * b ≤ a := by
      rw [Nat.mul_assoc, Nat.mul_comm _ b]
      exact grid_le hp hb (by omega)
    refine (roundSig_nearest_on_grid p a (2 ^ (p - 1)) hb).trans ?_
    rw [← Nat.cast_mul, ← Nat.cast_mul, abs_of_nonpos (by omega), abs_of_nonpos (by omega)]
    omega
  · rw [← Nat.sub_add_cancel hk, pow_add, ← Nat.mul_assoc]
    exact roundSig_nearest_on_grid p a _ hb

/-- A quotient half way between two places of the grid goes to the even one. -/
theorem roundSig_even_of_tie {p a b : Nat} (hb : 0 < b)
    (h : 2 * |(roundSig p a b : Int) * b - a| = (b * 2 ^ ulpExp p a b : Nat)) :
    roundSig p a b / 2 ^ ulpExp p a b % 2 = 0 := by
  rw [roundSig_mul_divisor] at h
  rw [roundSig, Nat.mul_div_cancel _ (by positivity)]
  exact roundDiv_even_of_tie (by positivity) h

/-- Settles O31: on the grid the result is the nearest integer with ties to even, and no number of the
format with a finer last place is nearer than the grid point `2 ^ (p - 1)` places up. -/
theorem roundingIsToNearestEven : Obligations.RoundingIsToNearestEven := by
  intro p a b hp hb
  exact ⟨roundSig_rep a hp hb, fun _ _ => roundSig_nearest hp hb, roundSig_even_of_tie hb⟩

end Sys2Proof.Machine
end

section
/-! The walk of `Initialize()` (spec 40_seed_table_init.md R64): which word it stores where, that the words from
number 1 on lie in `[0, MAX)`, and their values modulo `MAX`. -/

namespace Sys2Proof.Machine

/-- The first word is the exact difference: it never wraps (R63). -/
theorem firstWord_toInt (v : Word) : (firstWord v).toInt = 161803398 - (abs32 v).toInt := by
  have hm : MSEED.toInt = 161803398 := by decide
  have hv := word_toInt_bounds v
  rw [firstWord, sub32_toInt, hm, abs32_toInt]
  unfold MAX
  split_ifs <;> omega

/-- What a seed can put into `T[55]`. -/
theorem firstWord_bounds (v : Word) : -1985680249 ≤ (firstWord v).toInt ∧ (firstWord v).toInt ≤ 161803398 := by
  have hv := word_toInt_bounds v
  rw [firstWord_toInt, abs32_toInt]
  unfold MAX
  split_ifs <;> omega

/-! Where the walk stores. -/

/-- The indices of the walk are different, the walk being shorter than the ring of 55 live words. -/
theorem walkNext_iterate_ne {i k : Nat} (hi : i < k) (hk : k < 55) :
    walkNext^[k] (0 : Cursor) ≠ walkNext^[i] 0 := by
  intro e
  have := congrArg Fin.val e
  rw [walkNext_iterate, walkNext_iterate] at this
  omega

/-- From iteration `i` on, the walk stores word `k` of the recurrence at the `k`-th index. -/
theorem walk_read_iterate (m : Word) : ∀ (n i k : Nat) (t : Table), i + n < 55 → i < k → k ≤ i + n →
    readT (walk n (walkNext^[i] 0) (walkWord m i) (walkWord m (i + 1)) t) (walkNext^[k] 0) = walkWord m k
  | 0, _, _, _, _, _, _ => by omega
  | n + 1, i, k, t, hn, hik, hk => by
    have hnext : walkNext (walkNext^[i] (0 : Cursor)) = walkNext^[i + 1] 0 := (Function.iterate_succ_apply' ..).symm
    rw [walk, hnext]
    show readT (walk n _ _ (walkWord m (i + 2)) _) _ = _
    rcases Nat.eq_or_lt_of_le hik with rfl | hlt
    · rw [walk_read_of_ne, readT_writeT_same]
      intro l hl
      rw [← Function.iterate_add_apply]
      exact walkNext_iterate_ne (by omega) (by omega)
    · exact walk_read_iterate m n (i + 1) k _ (by omega) hlt (by omega)

/-- The walk fills every live word but `T[55]`: word `21 * j mod 55` of the recurrence stands in `T[j]`, because 21 is
its own inverse modulo 55. -/
theorem walk_read (m : Word) (t : Table) {j : Cursor} (h0 : j ≠ 0) (h55 : j ≠ 55) :
    readT (walk 54 0 m 1#32 t) j = walkWord m (21 * j.val % 55) := by
  have hj : j = walkNext^[21 * j.val % 55] 0 := by
    apply Fin.ext
    rw [walkNext_iterate]
    have h0' : j.val ≠ 0 := fun e => h0 (Fin.ext e)
    have h55' : j.val ≠ 55 := fun e => h55 (Fin.ext e)
    omega
  have hpos : 0 < 21 * j.val % 55 := by
    rcases Nat.eq_zero_or_pos (21 * j.val % 55) with h | h
    · rw [h] at hj; exact absurd hj h0
    · exact h
  conv_lhs => rw [hj]
  exact walk_read_iterate m 54 0 _ t (by omega) hpos (by omega)

/-- The walk does not store to `T[55]`. -/
theorem walk_read_last (m : Word) (t : Table) : readT (walk 54 0 m 1#32 t) 55 = readT t 55 := by
  refine walk_read_of_ne 54 0 m 1#32 t 55 fun k hk e => ?_
  have := congrArg Fin.val e
  rw [walkNext_iterate] at this
  change 21 * (k + 1) % 55 = 55 at this
  omega

/-! The words of the walk. -/

theorem walkWord_one (m : Word) : walkWord m 1 = 1#32 := rfl

theorem walkWord_add_two (m : Word) (n : Nat) :
    walkWord m (n + 2) = fold (sub32 (walkWord m n) (walkWord m (n + 1))) := rfl

theorem one_toInt : (1#32 : Word).toInt = 1 := by decide

/-- The fold of a difference that does not wrap is the difference modulo `MAX`. -/
theorem fold_sub32_modEq {a b : Word} (h : -2147483648 ≤ a.toInt - b.toInt) (h' : a.toInt - b.toInt ≤ 2147483647) :
    (fold (sub32 a b)).toInt ≡ a.toInt - b.toInt [ZMOD MAX] := by
  rw [fold_toInt, sub32_toInt, if_neg (not_lt.mpr h), if_neg (not_lt.mpr h')]
  split
  · exact Int.add_modEq_right
  · rfl

theorem fold_sub32_modEq_of_inRange {a b : Word} (ha : InRange a) (hb : InRange b) :
    (fold (sub32 a b)).toInt ≡ a.toInt - b.toInt [ZMOD MAX] := by
  obtain ⟨ha0, ha1⟩ := ha
  obtain ⟨hb0, hb1⟩ := hb
  unfold MAX at ha1 hb1
  exact fold_sub32_modEq (by omega) (by omega)

/-- From word 1 on the walk is in range, whatever the first word is that a seed can give. -/
theorem walkWord_inRange {m : Word} (hlo : -1985680249 ≤ m.toInt) (hhi : m.toInt ≤ 161803398) :
    ∀ n, InRange (walkWord m (n + 1))
  | 0 => by rw [walkWord_one, InRange, one_toInt, MAX]; omega
  | 1 => by
    show InRange (fold (sub32 m 1#32))
    rw [InRange, fold_toInt, sub32_toInt, one_toInt, MAX]
    split_ifs <;> omega
  | n + 2 => fold_sub32_inRange (walkWord_inRange hlo hhi n) (walkWord_inRange hlo hhi (n + 1))

/-- Modulo `MAX` the words of the walk are affine in the first one, with Fibonacci coefficients. -/
theorem walkWord_modEq {m : Word} (hlo : -1985680249 ≤ m.toInt) (hhi : m.toInt ≤ 161803398) :
    ∀ n, (walkWord m (n + 1)).toInt ≡ (-1) ^ n * ((Nat.fib (n + 1) : Int) - Nat.fib n * m.toInt) [ZMOD MAX]
  | 0 => by
    simp [walkWord_one]
  | 1 => by
    have h := fold_sub32_modEq (a := m) (b := 1#32) (by rw [one_toInt]; omega) (by rw [one_toInt]; omega)
    simpa [walkWord_add_two, walkWord, one_toInt] using h
  | n + 2 => by
    have h := fold_sub32_modEq_of_inRange (walkWord_inRange hlo hhi n) (walkWord_inRange hlo hhi (n + 1))
    refine (h.trans ((walkWord_modEq hlo hhi n).sub (walkWord_modEq hlo hhi (n + 1)))).trans (congrArg (· % MAX) ?_)
    rw [Nat.fib_add_two (n := n + 1), Nat.fib_add_two (n := n)]
    push_cast
    ring

end Sys2Proof.Machine
end

section
/-! The mixing passes of `Initialize()` (spec 40_seed_table_init.md R65): what a pass leaves in each word, and what it
makes of a negative word in `T[55]`, which only the steps 24 and 55 read. -/

namespace Sys2Proof.Machine

/-- The partner of `i` comes later in the pass up to 24, and earlier from 25 on. -/
theorem lt_partner_iff : ∀ i : Cursor, i < partner i ↔ i.val ≤ 24 := by decide

/-- A pass works in place and in ascending order: the word left at `i` comes from the old word at `i` and from the
partner's word, which the pass has not reached yet up to 24 and has left already from 25 on (R65, R42). -/
theorem mixPass_read (t : Table) {i : Cursor} (hi : i ≠ 0) : readT (mixPass t) i =
    fold (sub32 (readT t i) (if i.val ≤ 24 then readT t (partner i) else readT (mixPass t) (partner i))) := by
  have hmem : i ∈ (List.finRange 56).tail := by revert i; decide
  have hsorted : (List.finRange 56).tail.Pairwise (· < ·) := by decide
  obtain ⟨before, after, hsplit⟩ := List.append_of_mem hmem
  rw [hsplit] at hsorted
  obtain ⟨-, hafter, hbefore⟩ := List.pairwise_append.mp hsorted
  have hnot_before : ∀ j, i ≤ j → j ∉ before := fun j hj hb =>
    absurd (hbefore j hb i List.mem_cons_self) (not_lt.mpr hj)
  have hnot_after : ∀ j, j ≤ i → j ∉ after := fun j hj ha =>
    absurd ((List.pairwise_cons.mp hafter).1 j ha) (not_lt.mpr hj)
  have hpass : mixPass t = after.foldl mixStep (mixStep (before.foldl mixStep t) i) := by
    rw [mixPass, hsplit, List.foldl_append, List.foldl_cons]
  rw [hpass, foldl_mixStep_read_of_notMem _ _ (hnot_after i le_rfl), mixStep_read, if_pos rfl,
    foldl_mixStep_read_of_notMem _ _ (hnot_before i le_rfl)]
  split
  · next h => rw [foldl_mixStep_read_of_notMem _ _ (hnot_before _ ((lt_partner_iff i).mpr h).le)]
  · next h =>
    have hle : partner i ≤ i := not_lt.mp fun hlt => h ((lt_partner_iff i).mp hlt)
    rw [foldl_mixStep_read_of_notMem _ _ (hnot_after _ hle), mixStep_read, if_neg (partner_ne i hi).1]

/-- Mixing steps on live words read live words only, so word 0 never matters to them (R33). -/
theorem foldl_mixStep_congr (l : List Cursor) (hl : ∀ i ∈ l, i ≠ 0) (t u : Table)
    (h : ∀ j : Cursor, j ≠ 0 → readT t j = readT u j) :
    ∀ j : Cursor, j ≠ 0 → readT (l.foldl mixStep t) j = readT (l.foldl mixStep u) j := by
  induction l generalizing t u with
  | nil => exact h
  | cons i l ih =>
    have hi : i ≠ 0 := hl i List.mem_cons_self
    refine ih (fun j hj => hl j (List.mem_cons_of_mem _ hj)) _ _ fun j hj => ?_
    rw [mixStep_read, mixStep_read, h i hi, h _ (partner_ne i hi).2, h j hj]

theorem mixPasses_congr : ∀ (n : Nat) (t u : Table), (∀ j : Cursor, j ≠ 0 → readT t j = readT u j) →
    ∀ j : Cursor, j ≠ 0 → readT (mixPasses n t) j = readT (mixPasses n u) j
  | 0, _, _, h => h
  | n + 1, _, _, h => mixPasses_congr n _ _ (foldl_mixStep_congr _ (by decide) _ _ h)

/-- With all live words but `T[55]` in range, a pass leaves them in range if step 24, which reads `T[55]`, does. -/
theorem mixPass_inRange_below_last {t : Table} (ht : ∀ j : Cursor, j ≠ 0 → j ≠ 55 → InRange (readT t j))
    (h24 : InRange (readT (mixPass t) 24)) (i : Cursor) (hi : i ≠ 0) (hi' : i ≠ 55) :
    InRange (readT (mixPass t) i) := by
  have hpartner : ∀ i : Cursor, i ≠ 24 → partner i ≠ 55 := by decide
  induction i using WellFoundedLT.induction with
  | ind i ih =>
    by_cases he : i = 24
    · exact he ▸ h24
    rw [mixPass_read t hi]
    refine fold_sub32_inRange (ht i hi hi') ?_
    split
    · exact ht _ (partner_ne i hi).2 (hpartner i he)
    · next h =>
      have hle : partner i ≤ i := not_lt.mp fun hlt => h ((lt_partner_iff i).mp hlt)
      exact ih _ (lt_of_le_of_ne hle (partner_ne i hi).1) (partner_ne i hi).2 (hpartner i he)

/-- Modulo `MAX` the new word 31, which step 55 reads, is made of three old ones. -/
theorem mixPass_read_31_modEq {t : Table} (ht : ∀ j : Cursor, j ≠ 0 → j ≠ 55 → InRange (readT t j)) :
    (readT (mixPass t) 31).toInt ≡ (readT t 31).toInt - ((readT t 7).toInt - (readT t 38).toInt) [ZMOD MAX] := by
  have h7 : readT (mixPass t) 7 = fold (sub32 (readT t 7) (readT t 38)) := mixPass_read t (by decide)
  have h31 : readT (mixPass t) 31 = fold (sub32 (readT t 31) (readT (mixPass t) 7)) := mixPass_read t (by decide)
  have r7 := ht 7 (by decide) (by decide)
  have r38 := ht 38 (by decide) (by decide)
  rw [h31, h7]
  exact (fold_sub32_modEq_of_inRange (ht 31 (by decide) (by decide)) (fold_sub32_inRange r7 r38)).trans
    ((Int.ModEq.refl _).sub (fold_sub32_modEq_of_inRange r7 r38))

end Sys2Proof.Machine
end

section
/-! The table range (spec 10_state.md R24): `Initialize()` leaves every live word in `[0, MAX)` for every seed. A first
word that is not negative is in range itself. A negative one leaves the range in the steps 24 and 55 of the first pass
at most, and there for four first words only, whose tables are evaluated. -/

namespace Sys2Proof.Machine

/-- The table when the mixing passes begin, from a first word and the table of before. -/
def walkedTable (m : Word) (t : Table) : Table := walk 54 0 m 1#32 (writeT t 55 m)

theorem walkedTable_read_last (m : Word) (t : Table) : readT (walkedTable m t) 55 = m := by
  rw [walkedTable, walk_read_last, readT_writeT_same]

theorem walkedTable_read (m : Word) (t : Table) {j : Cursor} (h0 : j ≠ 0) (h55 : j ≠ 55) :
    readT (walkedTable m t) j = walkWord m (21 * j.val % 55) := walk_read m _ h0 h55

theorem walkedTable_inRange {m : Word} (hlo : -1985680249 ≤ m.toInt) (hhi : m.toInt ≤ 161803398) (t : Table)
    (j : Cursor) (h0 : j ≠ 0) (h55 : j ≠ 55) : InRange (readT (walkedTable m t) j) := by
  have hpos : ∀ j : Cursor, j ≠ 0 → j ≠ 55 → 21 * j.val % 55 ≠ 0 := by decide
  rw [walkedTable_read m t h0 h55, ← Nat.succ_pred (hpos j h0 h55)]
  exact walkWord_inRange hlo hhi _

/-- The walk overwrites all live words, so what the table held before does not matter. -/
theorem walkedTable_read_congr (m : Word) (t u : Table) (j : Cursor) (hj : j ≠ 0) :
    readT (walkedTable m t) j = readT (walkedTable m u) j := by
  by_cases h55 : j = 55
  · rw [h55, walkedTable_read_last, walkedTable_read_last]
  · rw [walkedTable_read m t hj h55, walkedTable_read m u hj h55]

/-! The two steps that read a negative first word. -/

/-- Step 24 subtracts the negative word: the fold leaves the range for two differences only. -/
theorem fold_sub32_inRange_of_neg_right {a m : Word} (ha : InRange a) (hlo : -1985680249 ≤ m.toInt) (hm : m.toInt < 0)
    (h : a.toInt - m.toInt ≠ MAX) (h' : a.toInt - m.toInt ≠ MAX + 1) : InRange (fold (sub32 a m)) := by
  unfold InRange MAX at *
  rw [fold_toInt, sub32_toInt, MAX]
  split_ifs <;> omega

/-- Step 55 subtracts from the negative word, likewise. -/
theorem fold_sub32_inRange_of_neg_left {a m : Word} (ha : InRange a) (hlo : -1985680249 ≤ m.toInt) (hm : m.toInt < 0)
    (h : a.toInt - m.toInt ≠ MAX + 1) (h' : a.toInt - m.toInt ≠ MAX + 2) : InRange (fold (sub32 m a)) := by
  unfold InRange MAX at *
  rw [fold_toInt, sub32_toInt, MAX]
  split_ifs <;> omega

/-- The first words for which step 24 or step 55 of the first pass does leave the range. -/
def strayFirstWords : List Int := [-1171354715, -1073741822, -452475753, -1073425010]

/-- A word that is affine in the first one modulo `MAX` has a given distance from it for one negative first word
only. -/
theorem eq_of_sub_eq_of_modEq {a m c d n r : Int} (ha : a ≡ d + c * m [ZMOD MAX]) (hn : a - m = n)
    (hr : r + n ≡ d + c * r [ZMOD MAX]) (hc : Int.gcd MAX (c - 1) = 1) (hm : -MAX < m ∧ m < 0)
    (hr' : -MAX < r ∧ r < 0) : m = r := by
  have hmul : (c - 1) * m ≡ (c - 1) * r [ZMOD MAX] := by
    have h : n - d ≡ (c - 1) * m [ZMOD MAX] := by
      rw [show n - d = a - (d + m) by omega, show (c - 1) * m = d + c * m - (d + m) by ring]
      exact ha.sub_right _
    have h' : n - d ≡ (c - 1) * r [ZMOD MAX] := by
      rw [show n - d = r + n - (d + r) by omega, show (c - 1) * r = d + c * r - (d + r) by ring]
      exact hr.sub_right _
    exact h.symm.trans h'
  have hmod : m ≡ r [ZMOD MAX] := by
    have h := hmul.cancel_left_div_gcd (by decide)
    rwa [hc, Nat.cast_one, Int.ediv_one] at h
  unfold Int.ModEq MAX at *
  omega

/-- No first word but a stray one has a distance that a stray one has. -/
theorem sub_ne_of_not_stray {a m c d n r : Int} (ha : a ≡ d + c * m [ZMOD MAX]) (hm : -MAX < m ∧ m < 0)
    (hstray : m ∉ strayFirstWords) (hr : r ∈ strayFirstWords) (hn : r + n ≡ d + c * r [ZMOD MAX])
    (hc : Int.gcd MAX (c - 1) = 1) : a - m ≠ n := by
  intro h
  have hbounds : ∀ r ∈ strayFirstWords, -MAX < r ∧ r < 0 := by decide
  exact hstray (eq_of_sub_eq_of_modEq ha h hn hc hm (hbounds r hr) ▸ hr)

/-- Word 24 before the first pass, modulo `MAX`. -/
theorem walkedTable_read_24_modEq {m : Word} (hlo : -1985680249 ≤ m.toInt) (hhi : m.toInt ≤ 161803398) (t : Table) :
    (readT (walkedTable m t) 24).toInt ≡ 34 + -21 * m.toInt [ZMOD MAX] := by
  rw [walkedTable_read m t (by decide) (by decide)]
  exact (walkWord_modEq hlo hhi 8).trans (congrArg (· % MAX) (by norm_num; ring))

/-- Word 31 after the first pass, modulo `MAX`. -/
theorem mixPass_walkedTable_read_31_modEq {m : Word} (hlo : -1985680249 ≤ m.toInt) (hhi : m.toInt ≤ 161803398)
    (t : Table) :
    (readT (mixPass (walkedTable m t)) 31).toInt ≡ -1860787531 + 1150029940 * m.toInt [ZMOD MAX] := by
  have h := mixPass_read_31_modEq (walkedTable_inRange hlo hhi t)
  rw [walkedTable_read m t (by decide) (by decide), walkedTable_read m t (by decide) (by decide),
    walkedTable_read m t (by decide) (by decide)] at h
  have h' := (walkWord_modEq hlo hhi 45).sub ((walkWord_modEq hlo hhi 36).sub (walkWord_modEq hlo hhi 27))
  exact (h.trans h').trans (congrArg (· % MAX) (by norm_num; ring))

/-- Outside the four stray first words, step 24 of the first pass stays in range. -/
theorem mixPass_walkedTable_24_inRange {m : Word} (hlo : -1985680249 ≤ m.toInt) (hm : m.toInt < 0)
    (hstray : m.toInt ∉ strayFirstWords) (t : Table) : InRange (readT (mixPass (walkedTable m t)) 24) := by
  have hpass : readT (mixPass (walkedTable m t)) 24 =
      fold (sub32 (readT (walkedTable m t) 24) (readT (walkedTable m t) 55)) := mixPass_read _ (by decide)
  have hmod := walkedTable_read_24_modEq hlo (by omega) t
  have hbounds : -MAX < m.toInt ∧ m.toInt < 0 := ⟨by unfold MAX; omega, hm⟩
  rw [hpass, walkedTable_read_last]
  refine fold_sub32_inRange_of_neg_right (walkedTable_inRange hlo (by omega) t 24 (by decide) (by decide)) hlo hm ?_ ?_
  · exact sub_ne_of_not_stray (r := -1171354715) hmod hbounds hstray (by decide) (by decide) (by decide)
  · exact sub_ne_of_not_stray (r := -1073741822) hmod hbounds hstray (by decide) (by decide) (by decide)

/-- Outside the four stray first words, step 55 of the first pass stays in range. -/
theorem mixPass_walkedTable_55_inRange {m : Word} (hlo : -1985680249 ≤ m.toInt) (hm : m.toInt < 0)
    (hstray : m.toInt ∉ strayFirstWords) (t : Table) (h31 : InRange (readT (mixPass (walkedTable m t)) 31)) :
    InRange (readT (mixPass (walkedTable m t)) 55) := by
  have hpass : readT (mixPass (walkedTable m t)) 55 =
      fold (sub32 (readT (walkedTable m t) 55) (readT (mixPass (walkedTable m t)) 31)) := mixPass_read _ (by decide)
  have hmod := mixPass_walkedTable_read_31_modEq hlo (by omega) t
  have hbounds : -MAX < m.toInt ∧ m.toInt < 0 := ⟨by unfold MAX; omega, hm⟩
  rw [hpass, walkedTable_read_last]
  refine fold_sub32_inRange_of_neg_left h31 hlo hm ?_ ?_
  · exact sub_ne_of_not_stray (r := -452475753) hmod hbounds hstray (by decide) (by decide) (by decide)
  · exact sub_ne_of_not_stray (r := -1073425010) hmod hbounds hstray (by decide) (by decide) (by decide)

/-- For the four stray first words the second pass brings the table back into range. -/
theorem mixPasses_two_inRange_of_stray : ∀ m ∈ strayFirstWords, ∀ j : Cursor, j ≠ 0 →
    InRange (readT (mixPasses 2 (walkedTable (wrap32 m) (Vector.replicate 56 0))) j) := by
  unfold InRange
  decide +kernel

/-! The table range. -/

theorem walkedTable_inRange_of_nonneg {m : Word} (hm : 0 ≤ m.toInt) (hhi : m.toInt ≤ 161803398) (t : Table)
    (j : Cursor) (hj : j ≠ 0) : InRange (readT (walkedTable m t) j) := by
  by_cases h55 : j = 55
  · rw [h55, walkedTable_read_last]
    exact ⟨hm, by unfold MAX; omega⟩
  · exact walkedTable_inRange (by omega) hhi t j hj h55

theorem mixPass_walkedTable_inRange_of_neg {m : Word} (hlo : -1985680249 ≤ m.toInt) (hm : m.toInt < 0)
    (hstray : m.toInt ∉ strayFirstWords) (t : Table) (j : Cursor) (hj : j ≠ 0) :
    InRange (readT (mixPass (walkedTable m t)) j) := by
  have hbelow := mixPass_inRange_below_last (walkedTable_inRange hlo (by omega) t)
    (mixPass_walkedTable_24_inRange hlo hm hstray t)
  by_cases h55 : j = 55
  · rw [h55]
    exact mixPass_walkedTable_55_inRange hlo hm hstray t (hbelow 31 (by decide) (by decide))
  · exact hbelow j hj h55

/-- Two passes leave every live word in range, from any first word a seed can give. -/
theorem mixPasses_two_walkedTable_inRange {m : Word} (hlo : -1985680249 ≤ m.toInt) (hhi : m.toInt ≤ 161803398)
    (t : Table) (j : Cursor) (hj : j ≠ 0) : InRange (readT (mixPasses 2 (walkedTable m t)) j) := by
  rcases lt_or_ge m.toInt 0 with hm | hm
  · by_cases hstray : m.toInt ∈ strayFirstWords
    · have h := mixPasses_two_inRange_of_stray m.toInt hstray j hj
      rw [wrap32, BitVec.ofInt_toInt] at h
      rwa [mixPasses_congr 2 _ _ (walkedTable_read_congr m t _) j hj]
    · exact mixPass_inRange (mixPass (walkedTable m t)) (mixPass_walkedTable_inRange_of_neg hlo hm hstray t) j hj
  · exact mixPasses_inRange 2 (walkedTable m t) (walkedTable_inRange_of_nonneg hm hhi t) j hj

theorem initTable_read_eq (g : Gen) (j : Cursor) :
    (initTable g).read j = readT (mixPasses 2 (mixPasses 2 (walkedTable (firstWord g.seed) g.table))) j := by
  rw [initTable_read, seedTable_eq]
  rfl

/-- `Initialize()` leaves every live word in `[0, MAX)`, for every seed. -/
theorem initTable_read_inRange (g : Gen) (j : Cursor) (hj : j ≠ 0) : InRange ((initTable g).read j) := by
  obtain ⟨hlo, hhi⟩ := firstWord_bounds g.seed
  rw [initTable_read_eq]
  exact mixPasses_inRange 2 _ (mixPasses_two_walkedTable_inRange hlo hhi g.table) j hj

/-- A raw draw keeps the range: it writes one live word, the adjusted difference of two (R77). -/
theorem drawWord_read_inRange {g : Gen} (hg : ∀ i : Cursor, i ≠ 0 → InRange (g.read i)) (j : Cursor) (hj : j ≠ 0) :
    InRange ((drawWord g).2.read j) := by
  rw [drawWord_read]
  split
  · rw [drawWord_value]
    exact adjust_sub32_inRange (hg _ (nextCursor_ne_zero _)) (hg _ (nextCursor_ne_zero _))
  · exact hg j hj

/-- A raw sample keeps the range, also the one that initialises the table. -/
theorem rawSample_tableInRange {g : Gen} (hg : g.TableInRange) : (rawSample g).2.TableInRange := by
  intro _
  cases h : g.init with
  | true => rw [rawSample_of_init h]; exact drawWord_read_inRange (hg h)
  | false => rw [rawSample_of_not_init h]; exact drawWord_read_inRange (initTable_read_inRange g)

/-- Settles O24: the two steps of the first pass that read a negative first word leave the range for four first words
only, and those are evaluated; every other step keeps it. -/
theorem everySeedInitialisesInRange : Obligations.EverySeedInitialisesInRange :=
  ⟨fun g _ => initTable_read_inRange g, fun _ _ => rawSample_tableInRange⟩

end Sys2Proof.Machine
end

section
/-! What every step keeps (spec 10_state.md R18, R24, R25, 20_memory.md R37). A command or a step changes the
generator by `SEED`, by reset, which both leave it uninitialised, or by raw samples on a seeded engine; so an invariant
of the generator needs one lemma about a raw sample. -/

namespace Sys2Proof.Machine

/-- What is asked only while the table holds a value is true while it does not. -/
theorem elim_init {p : Prop} {g : Gen} (h : g.init = false) (h' : g.init = true) : p :=
  absurd (h.symm.trans h') Bool.false_ne_true

section generator
variable {P : Gen → Prop} (huninit : ∀ g : Gen, g.init = false → P g)
  (hraw : ∀ g : Gen, g.seeded = true → P g → P (rawSample g).2)

include hraw in
theorem afterDraws_keeps (n : Nat) {g : Gen} (hseeded : g.seeded = true) (hg : P g) : P (afterDraws rawSample n g) := by
  induction n with
  | zero => exact hg
  | succ n ih =>
    rw [afterDraws_succ]
    exact hraw _ ((afterDraws_seeded n g).trans hseeded) ih

include huninit hraw

/-- What holds of every uninitialised generator and is kept by a raw sample is kept by every command. -/
theorem exec_keeps_gen {i : Instr} {s t : State} (hs : P s.gen) (h : exec i s = .next t) : P t.gen := by
  obtain ⟨v, -, rfl⟩ | ⟨rfl, -⟩ | ⟨rfl, -⟩ | ⟨n, ⟨hseeded, ht⟩, -⟩ | ⟨len, -, hseeded, rfl⟩ := exec_next_cases h
  · exact huninit _ rfl
  · exact hs
  · exact hs
  · rw [ht]
    exact afterDraws_keeps hraw n hseeded hs
  · exact afterDraws_keeps hraw len hseeded hs

/-- The same for every step. -/
theorem step_keeps_gen {s t : State} (hs : P s.gen) (h : step s = .next t) : P t.gen := by
  obtain ⟨-, rfl⟩ | ⟨a, rest, -, hact⟩ := step_next_cases h
  · exact hs
  obtain ⟨w, -, rfl⟩ | ⟨w, -, rfl⟩ | ⟨c, i, -, -, hexec⟩ | ⟨c, e, -, -, rfl⟩ | ⟨-, rfl⟩ | ⟨c, -, rfl⟩ := hact
  · exact hs
  · exact hs
  · exact exec_keeps_gen huninit hraw (s := { s with host := rest }) hs hexec
  · exact hs
  · exact huninit _ rfl
  · exact huninit _ rfl

end generator

/-! The cursors (R25). -/

/-- A raw draw moves both cursors one place on round the ring. -/
theorem drawWord_cursorsApart {g : Gen} (hb : g.indexB ≠ 0) (hab : (g.indexB.val + 55 - g.indexA.val) % 55 = 21) :
    (drawWord g).2.CursorsApart := by
  intro _
  refine ⟨nextCursor_ne_zero _, ?_⟩
  rw [drawWord_indexA, drawWord_indexB, nextCursor_val, nextCursor_val]
  have := g.indexA.isLt
  have := g.indexB.isLt
  have hb' : g.indexB.val ≠ 0 := fun e => hb (Fin.ext e)
  omega

theorem rawSample_cursorsApart {g : Gen} (hg : g.CursorsApart) : (rawSample g).2.CursorsApart := by
  cases h : g.init with
  | true =>
    rw [rawSample_of_init h]
    obtain ⟨hb, hab⟩ := hg h
    exact drawWord_cursorsApart hb hab
  | false =>
    rw [rawSample_of_not_init h]
    refine drawWord_cursorsApart ?_ ?_
    · rw [initTable_indexB]; decide
    · rw [initTable_indexA, initTable_indexB]; decide

theorem rawSample_indexA {g : Gen} (h : g.init = true) : (rawSample g).2.indexA = nextCursor g.indexA := by
  rw [rawSample_of_init h, drawWord_indexA]

theorem rawSample_indexB {g : Gen} (h : g.init = true) : (rawSample g).2.indexB = nextCursor g.indexB := by
  rw [rawSample_of_init h, drawWord_indexB]

/-- After `Initialize()` and `n` raw samples both cursors are functions of `n` (R25, R72). -/
theorem afterDraws_initTable_cursors (g : Gen) (n : Nat) :
    (afterDraws rawSample (n + 1) (initTable g)).indexA.val = n % 55 + 1 ∧
    (afterDraws rawSample (n + 1) (initTable g)).indexB.val = (n + 21) % 55 + 1 := by
  induction n with
  | zero =>
    rw [afterDraws_succ, afterDraws_zero, rawSample_indexA (initTable_init g), rawSample_indexB (initTable_init g)]
    exact ⟨rfl, rfl⟩
  | succ n ih =>
    obtain ⟨ha, hb⟩ := ih
    have hinit : (afterDraws rawSample (n + 1) (initTable g)).init = true := by rw [afterDraws_succ, rawSample_init]
    rw [afterDraws_succ, rawSample_indexA hinit, rawSample_indexB hinit, nextCursor_val, nextCursor_val, ha, hb]
    omega

/-- Settles O26: the first sample initialises the table, and each one moves both cursors. -/
theorem cursorsAfterDraws : Obligations.CursorsAfterDraws := by
  refine ⟨fun g => ⟨rfl, rfl⟩, fun g n hinit hn => ?_⟩
  obtain ⟨n, rfl⟩ := Nat.exists_eq_add_of_le' hn
  rw [afterDraws_initTable hinit]
  obtain ⟨ha, hb⟩ := afterDraws_initTable_cursors g n
  refine ⟨by omega, by omega, by omega, fun e => ?_⟩
  rw [e] at ha
  omega

/-! The buffer (R37, R50). -/

/-- A decoded length is an unsigned 32-bit number (R50). -/
theorem decode_fillBytes_lt {c : Byte} {a0 a1 : DWord} {len : Nat} (h : decode c a0 a1 = .ok (.fillBytes len)) :
    len < 2 ^ 32 := by
  unfold decode at h
  split at h <;> cases h
  exact isU32_iff.mp (readU32_wf a0)

theorem fill_bufferOk {len : Nat} (hlen : len < 2 ^ 32) (g : Gen) :
    Memory.wf (fill len 0 g []).2 ∧ ∀ c ∈ (fill len 0 g []).2, c.1 < 2 ^ 32 - 1 := by
  refine ⟨fill_wf len 0 g [] List.Pairwise.nil, fun c hc => ?_⟩
  rcases fill_mem len 0 g [] c hc with h | ⟨-, h⟩
  · cases h
  · omega

/-- A command keeps the buffer canonical when its length, if it has one, fits its register. -/
theorem exec_bufferOk {i : Instr} {s t : State} (hs : s.BufferOk) (hlen : ∀ len, i = .fillBytes len → len < 2 ^ 32)
    (h : exec i s = .next t) : t.BufferOk := by
  obtain ⟨v, -, rfl⟩ | ⟨rfl, -⟩ | ⟨rfl, -⟩ | ⟨n, ⟨-, ht⟩, -⟩ | ⟨len, hi, -, rfl⟩ := exec_next_cases h
  · exact hs
  · exact hs
  · exact hs
  · rw [ht]
    exact hs
  · exact fill_bufferOk (hlen len hi) s.gen

/-- What reset leaves of a buffer that a command was filling is canonical too. -/
theorem abandonedBuffer_bufferOk {s : State} (hs : s.BufferOk) (c : Byte) :
    Memory.wf (s.abandonedBuffer c) ∧ ∀ x ∈ s.abandonedBuffer c, x.1 < 2 ^ 32 - 1 := by
  unfold State.abandonedBuffer
  split
  · next len hd =>
    split
    · refine ⟨abandonedBuf_wf _ _, fun x hx => ?_⟩
      have := abandonedBuf_lt hx
      have := decode_fillBytes_lt hd
      omega
    · exact hs
  · exact hs

theorem step_bufferOk {s t : State} (hs : s.BufferOk) (h : step s = .next t) : t.BufferOk := by
  obtain ⟨-, rfl⟩ | ⟨a, rest, -, hact⟩ := step_next_cases h
  · exact hs
  obtain ⟨w, -, rfl⟩ | ⟨w, -, rfl⟩ | ⟨c, i, -, hd, hexec⟩ | ⟨c, e, -, -, rfl⟩ | ⟨-, rfl⟩ | ⟨c, -, rfl⟩ := hact
  · exact hs
  · exact hs
  · have hlen : ∀ len, i = .fillBytes len → len < 2 ^ 32 := fun len hi => decode_fillBytes_lt (hi ▸ hd)
    exact exec_bufferOk (s := { s with host := rest }) hs hlen hexec
  · exact hs
  · exact hs
  · exact abandonedBuffer_bufferOk hs c

/-! The invariants of the machine. -/

/-- Settles O57: a raw sample keeps the range, whether it initialises the table or not. -/
theorem everyStepKeepsTheTableInRange : Obligations.EveryStepKeepsTheTableInRange := fun _ _ hs h =>
  step_keeps_gen (P := Gen.TableInRange) (fun _ => elim_init) (fun _ _ => rawSample_tableInRange) hs h

/-- Settles O55: the buffer by the lengths a command can have, the cursors because they move together, the seed because
only a seeded engine draws. -/
theorem everyStepKeepsTheInvariant : Obligations.EveryStepKeepsTheInvariant := by
  intro s t ⟨hbuf, hcursors, hseed⟩ h
  refine ⟨step_bufferOk hbuf h, ?_, ?_⟩
  · exact step_keeps_gen (P := Gen.CursorsApart) (fun _ => elim_init) (fun _ _ => rawSample_cursorsApart) hcursors h
  · exact step_keeps_gen (P := Gen.InitNeedsSeed) (fun _ => elim_init)
      (fun g hg _ _ => (rawSample_seeded g).trans hg) hseed h

/-- Settles O56: the reset state is uninitialised and its buffer is empty. -/
theorem resetHasTheInvariant : Obligations.ResetHasTheInvariant := by
  have huninit : State.reset.gen.init = false := rfl
  have hbuf : State.reset.BufferOk := ⟨List.Pairwise.nil, fun _ hc => nomatch hc⟩
  exact ⟨⟨hbuf, elim_init huninit, elim_init huninit⟩, elim_init huninit⟩

end Sys2Proof.Machine
end

section
/-! Frames of the commands, the host's writes, reset and the status byte (spec 10_state.md R14, R15, R20 to R22, R29,
R33). -/

namespace Sys2Proof.Machine

/-- Settles O52: no shape of a command's next state writes these fields, and raw samples keep word 0 and the seed. -/
theorem commandsNeverWriteOperandsOrWordZero : Obligations.CommandsNeverWriteOperandsOrWordZero := by
  intro i s t h
  obtain ⟨v, hi, rfl⟩ | ⟨rfl, -⟩ | ⟨rfl, -⟩ | ⟨n, ⟨-, ht⟩, -⟩ | ⟨len, -, -, rfl⟩ := exec_next_cases h
  · exact ⟨rfl, rfl, rfl, rfl, rfl, fun hne => absurd hi (hne v)⟩
  · exact ⟨rfl, rfl, rfl, rfl, rfl, fun _ => ⟨rfl, rfl⟩⟩
  · exact ⟨rfl, rfl, rfl, rfl, rfl, fun _ => ⟨rfl, rfl⟩⟩
  · rw [ht]
    exact ⟨rfl, rfl, rfl, rfl, afterDraws_read_zero n s.gen,
      fun _ => ⟨afterDraws_seed n s.gen, afterDraws_seeded n s.gen⟩⟩
  · exact ⟨rfl, rfl, rfl, rfl, afterDraws_read_zero len s.gen,
      fun _ => ⟨afterDraws_seed len s.gen, afterDraws_seeded len s.gen⟩⟩

/-- Settles O53: of the shapes of a next state only the sampled one writes `RES`, and it ends in `OK` and belongs to
neither command. -/
theorem resultIsKeptByErrorsSeedAndFill : Obligations.ResultIsKeptByErrorsSeedAndFill := by
  intro i s t h hkind
  obtain ⟨v, -, rfl⟩ | ⟨rfl, -⟩ | ⟨rfl, -⟩ | ⟨n, ⟨-, ht⟩, hfill, hseed⟩ | ⟨len, -, -, rfl⟩ := exec_next_cases h
  · rfl
  · rfl
  · rfl
  · have hok : t.err = .ok := by rw [ht]
    obtain herr | ⟨v, hi⟩ | ⟨len, hi⟩ := hkind
    · exact absurd hok herr
    · exact absurd hi (hseed v)
    · exact absurd hi (hfill len)
  · rfl

/-- A step with an action waiting is that action, taken off the list. -/
theorem step_of_cons {s : State} {a : HostAction} {rest : List HostAction} (h : s.host = a :: rest) :
    step s = act a { s with host := rest } := by
  rw [step, h]

theorem step_of_nil {s : State} (h : s.host = []) : step s = .next s := by
  rw [step, h]

/-- Settles O8: each clause is the step of one host action, or of none. -/
theorem hostWritesAndIdle : Obligations.HostWritesAndIdle := fun _ _ _ =>
  ⟨fun h => step_of_cons h, fun h => step_of_cons h, fun h => step_of_nil h⟩

/-- Reset leaves the engine unseeded with `ERR = OK`, so every bit of `STATUS` is zero. -/
@[simp] theorem afterReset_status (s : State) : s.afterReset.status = 0x00#8 := by
  rw [State.status, afterReset_seeded, afterReset_err]
  decide

/-- Settles O10: a step with the reset event waiting is that event. -/
theorem resetLeavesTheEngineUnseeded : Obligations.ResetLeavesTheEngineUnseeded := by
  refine ⟨⟨rfl, rfl, by decide⟩, fun s rest h => ?_⟩
  refine ⟨State.afterReset { s with host := rest }, step_of_cons h, ?_⟩
  exact ⟨afterReset_seeded _, afterReset_init _, afterReset_status _, afterReset_buf _, afterReset_host _⟩

/-- Settles O12: the byte of each outcome, unseeded and seeded. -/
theorem statusByteLayout : Obligations.StatusByteLayout := by
  intro s
  rw [State.status]
  cases s.err with
  | ok => cases s.gen.seeded <;> decide
  | invalidRange => cases s.gen.seeded <;> decide
  | notSeeded => cases s.gen.seeded <;> decide
  | illegalCmd => cases s.gen.seeded <;> decide

end Sys2Proof.Machine
end

section
/-! The frame of the buffer (spec 20_memory.md R34, R37). -/

namespace Sys2Proof.Machine

/-- A fill from position 0 into an empty buffer lists no position at or beyond its length (R37). -/
theorem fill_read_beyond {len j : Nat} (h : len ≤ j) (g : Gen) : Memory.read (fill len 0 g []).2 j = none := by
  refine Memory.read_eq_none fun c hc hj => ?_
  rcases fill_mem len 0 g [] c hc with hnil | ⟨-, hlt⟩
  · cases hnil
  · omega

/-- A command keeps the whole buffer, unless it is `FILL_BYTES` on a seeded engine, which puts its fill there (R34). -/
theorem exec_buf_cases {i : Instr} {s t : State} (h : exec i s = .next t) :
    (t.buf = s.buf ∧ (s.gen.seeded = false ∨ ∀ len, i ≠ .fillBytes len)) ∨
    (∃ len, i = .fillBytes len ∧ s.gen.seeded = true ∧ t.buf = (fill len 0 s.gen []).2) := by
  obtain ⟨v, rfl, rfl⟩ | ⟨rfl, hs, -⟩ | ⟨rfl, -, hi⟩ | ⟨n, ⟨-, ht⟩, hfill, -⟩ | ⟨len, hi, hs, rfl⟩ := exec_next_cases h
  · exact .inl ⟨rfl, .inr nofun⟩
  · exact .inl ⟨rfl, .inl hs⟩
  · obtain ⟨_, rfl, -⟩ | ⟨_, _, rfl, -⟩ | ⟨_, _, rfl, -⟩ := hi
    · exact .inl ⟨rfl, .inr nofun⟩
    · exact .inl ⟨rfl, .inr nofun⟩
    · exact .inl ⟨rfl, .inr nofun⟩
  · exact .inl ⟨by rw [ht], .inr hfill⟩
  · exact .inr ⟨len, hi, hs, rfl⟩

/-- Settles O54: either the buffer is kept, and then the command is no `FILL_BYTES` on a seeded engine, or it is that
command's fill, which ends at the length. -/
theorem onlyFillBytesWritesTheBuffer : Obligations.OnlyFillBytesWritesTheBuffer := by
  intro i s t h
  obtain ⟨hbuf, hkind⟩ | ⟨len, rfl, hseeded, hbuf⟩ := exec_buf_cases h
  · refine ⟨fun _ j => by rw [hbuf], fun len hi => ⟨fun _ j => by rw [hbuf], fun hseeded => ?_⟩⟩
    obtain hunseeded | hother := hkind
    · exact absurd (hunseeded.symm.trans hseeded) Bool.false_ne_true
    · exact absurd hi (hother len)
  · refine ⟨fun hother => absurd rfl (hother len), fun n hn => ⟨fun hunseeded => ?_, fun _ j hj => ?_⟩⟩
    · exact absurd (hunseeded.symm.trans hseeded) Bool.false_ne_true
    · cases hn
      rw [hbuf]
      exact fill_read_beyond hj s.gen

end Sys2Proof.Machine
end

section
/-! Commands as words (spec 30_encoding.md R46 to R54, R56): what the decoder answers row by row, and that it and the
assembler undo each other. -/

namespace Sys2Proof.Machine

/-! The rows of the opcode map (R52). -/

section rows
variable (a0 a1 : DWord)

@[simp] theorem decode_seed : decode 0x01#8 a0 a1 = .ok (.seed (readI32 a0)) := rfl
@[simp] theorem decode_nextRaw : decode 0x02#8 a0 a1 = .ok .nextRaw := rfl
@[simp] theorem decode_sampleUnit : decode 0x03#8 a0 a1 = .ok .sampleUnit := rfl
@[simp] theorem decode_nextMax : decode 0x04#8 a0 a1 = .ok (.nextMax (readI32 a0)) := rfl
@[simp] theorem decode_nextRange : decode 0x05#8 a0 a1 = .ok (.nextRange (readI32 a0) (readI32 a1)) := rfl
@[simp] theorem decode_nextInt64 : decode 0x06#8 a0 a1 = .ok .nextInt64 := rfl
@[simp] theorem decode_nextInt64Range : decode 0x07#8 a0 a1 = .ok (.nextInt64Range (readI64 a0) (readI64 a1)) := rfl
@[simp] theorem decode_nextSingle : decode 0x08#8 a0 a1 = .ok .nextSingle := rfl
@[simp] theorem decode_fillBytes : decode 0x09#8 a0 a1 = .ok (.fillBytes (readU32 a0)) := rfl

end rows

/-- Settles O1: the assembler writes the code of the command's own row, and each operand reads back from the register
it was put into. -/
theorem decodeUndoesEncode : Obligations.DecodeUndoesEncode := by
  intro i a0 a1 hwf
  cases i with
  | seed s => exact (decode_seed (putI32 s) a1).trans (by rw [readI32_putI32 hwf])
  | nextRaw => exact decode_nextRaw a0 a1
  | sampleUnit => exact decode_sampleUnit a0 a1
  | nextMax hi => exact (decode_nextMax (putI32 hi) a1).trans (by rw [readI32_putI32 hwf])
  | nextRange lo hi =>
    obtain ⟨hlo, hhi⟩ := Bool.and_eq_true_iff.mp hwf
    exact (decode_nextRange (putI32 lo) (putI32 hi)).trans (by rw [readI32_putI32 hlo, readI32_putI32 hhi])
  | nextInt64 => exact decode_nextInt64 a0 a1
  | nextInt64Range lo hi =>
    obtain ⟨hlo, hhi⟩ := Bool.and_eq_true_iff.mp hwf
    exact (decode_nextInt64Range (putI64 lo) (putI64 hi)).trans (by rw [readI64_putI64 hlo, readI64_putI64 hhi])
  | nextSingle => exact decode_nextSingle a0 a1
  | fillBytes len => exact (decode_fillBytes (putU32 len) a1).trans (by rw [readU32_putU32 hwf])

/-- Settles O2: in each row the operands are read within their types, and the row's code is the assembler's. -/
theorem decodedCommandsAreWellFormed : Obligations.DecodedCommandsAreWellFormed := by
  intro c a0 a1 i h
  unfold decode at h
  split at h <;> cases h
  case h_1 => exact ⟨readI32_wf a0, rfl⟩
  case h_2 => exact ⟨rfl, rfl⟩
  case h_3 => exact ⟨rfl, rfl⟩
  case h_4 => exact ⟨readI32_wf a0, rfl⟩
  case h_5 => exact ⟨Bool.and_eq_true_iff.mpr ⟨readI32_wf a0, readI32_wf a1⟩, rfl⟩
  case h_6 => exact ⟨rfl, rfl⟩
  case h_7 => exact ⟨Bool.and_eq_true_iff.mpr ⟨readI64_wf a0, readI64_wf a1⟩, rfl⟩
  case h_8 => exact ⟨rfl, rfl⟩
  case h_9 => exact ⟨readU32_wf a0, rfl⟩

/-! What the formats S32, P32, P64 and L32 read (R48 to R50, R54). -/

/-- An `i32` operand is the residue of its register in `[MIN, MAX]` (R48). -/
theorem readI32_spec (w : DWord) :
    -2 ^ 31 ≤ readI32 w ∧ readI32 w < 2 ^ 31 ∧ readI32 w % 2 ^ 32 = (w.toNat : Int) % 2 ^ 32 := by
  obtain ⟨hlo, hhi⟩ := isI32_iff.mp (readI32_wf w)
  have hmod : readI32 w % 2 ^ 32 = (readU32 w : Int) % 2 ^ 32 := by
    rw [readI32, BitVec.toInt_eq_toNat_bmod]
    exact Int.bmod_emod
  rw [readU32_eq] at hmod
  omega

/-- An `i64` operand is the residue of its register in the range of its type (R49). -/
theorem readI64_spec (w : DWord) :
    -2 ^ 63 ≤ readI64 w ∧ readI64 w < 2 ^ 63 ∧ readI64 w % 2 ^ 64 = (w.toNat : Int) := by
  obtain ⟨hlo, hhi⟩ := isI64_iff.mp (readI64_wf w)
  have hmod : readI64 w % 2 ^ 64 = (w.toNat : Int) % 2 ^ 64 := by
    rw [readI64, BitVec.toInt_eq_toNat_bmod]
    exact Int.bmod_emod
  have := w.isLt
  omega

/-- A length operand is read from the low half alone (R50). -/
theorem readU32_congr {v w : DWord} (h : v.toNat % 2 ^ 32 = w.toNat % 2 ^ 32) : readU32 v = readU32 w := by
  rw [readU32_eq, readU32_eq, h]

/-- Settles O3: each row reads its operands with the function of its format. -/
theorem operandsAreReadAsTheFormatsSay : Obligations.OperandsAreReadAsTheFormatsSay := by
  intro a0 a1
  refine ⟨⟨readI32 a0, decode_seed a0 a1, decode_nextMax a0 a1, readI32_spec a0⟩,
    ⟨readI32 a0, readI32 a1, decode_nextRange a0 a1, ?_⟩,
    ⟨readI64 a0, readI64 a1, decode_nextInt64Range a0 a1, ?_⟩, ?_⟩
  · obtain ⟨hlo, hhi, hmod⟩ := readI32_spec a0
    exact ⟨hlo, hhi, hmod, readI32_spec a1⟩
  · obtain ⟨hlo, hhi, hmod⟩ := readI64_spec a0
    exact ⟨hlo, hhi, hmod, readI64_spec a1⟩
  · rw [decode_fillBytes, readU32_eq]

/-- Settles O4: a 32-bit operand depends on the low half of its register, and no other register occurs in the row. -/
theorem unusedOperandBitsAreIgnored : Obligations.UnusedOperandBitsAreIgnored := by
  intro c a0 a1 b0 b1
  refine ⟨fun hc => ?_, fun hc h0 => ?_, fun hc h0 h1 => ?_⟩
  · simp only [List.mem_cons, List.not_mem_nil, or_false] at hc
    obtain rfl | rfl | rfl | rfl := hc
    · rw [decode_nextRaw, decode_nextRaw]
    · rw [decode_sampleUnit, decode_sampleUnit]
    · rw [decode_nextInt64, decode_nextInt64]
    · rw [decode_nextSingle, decode_nextSingle]
  · simp only [List.mem_cons, List.not_mem_nil, or_false] at hc
    obtain rfl | rfl | rfl := hc
    · rw [decode_seed, decode_seed, readI32_congr h0]
    · rw [decode_nextMax, decode_nextMax, readI32_congr h0]
    · rw [decode_fillBytes, decode_fillBytes, readU32_congr h0]
  · subst hc
    rw [decode_nextRange, decode_nextRange, readI32_congr h0, readI32_congr h1]

/-- Settles O5: twelve closed words, evaluated. -/
theorem opcodeMapWordsDecode : Obligations.OpcodeMapWordsDecode :=
  ⟨by decide, by decide, by decide, by decide⟩

end Sys2Proof.Machine
end

section
/-! Commands as host actions (spec 30_encoding.md R46, R53, R55, R56): the step that writes a code to `CMD`, and the
steps of an assembled line. -/

namespace Sys2Proof.Machine

/-! The step that writes `CMD`. -/

theorem runCommand_of_ok {c : Byte} {s : State} {i : Instr} (h : decode c s.arg0 s.arg1 = .ok i) :
    runCommand c s = exec i s := by
  rw [runCommand, h]

theorem runCommand_of_error {c : Byte} {s : State} {e : DecodeError} (h : decode c s.arg0 s.arg1 = .error e) :
    runCommand c s = raise .illegalCmd s := by
  rw [runCommand, h]

theorem step_writeCmd {s : State} {c : Byte} {rest : List HostAction} (h : s.host = .writeCmd c :: rest) :
    step s = runCommand c { s with host := rest } :=
  step_of_cons h

/-- Settles O6: the step is the `CMD` write, and the command reads the registers as they are. -/
theorem stepRunsTheDecodedCommand : Obligations.StepRunsTheDecodedCommand := by
  intro s c rest i hhost hdecode
  rw [step_writeCmd hhost]
  exact runCommand_of_ok hdecode

theorem encode_cmd_bounds (i : Instr) : 1 ≤ (encode i).cmd.toNat ∧ (encode i).cmd.toNat ≤ 9 := by
  cases i <;> simp [encode]

/-- A code outside the opcode map is no command, whatever the operand registers hold (R53). -/
theorem exists_decode_eq_error {c : Byte} (h : c.toNat = 0 ∨ 10 ≤ c.toNat) (a0 a1 : DWord) :
    ∃ e, decode c a0 a1 = .error e := by
  cases hd : decode c a0 a1 with
  | ok i =>
    obtain ⟨-, hcode⟩ := decodedCommandsAreWellFormed c a0 a1 i hd
    have hbounds := encode_cmd_bounds i
    rw [hcode] at hbounds
    omega
  | error e => exact ⟨e, rfl⟩

/-- Settles O7: an illegal code ends in `raise`, and `STATUS` is the layout of that error's code. -/
theorem illegalCodeChangesOnlyErr : Obligations.IllegalCodeChangesOnlyErr := by
  intro s c rest hhost hc
  obtain ⟨e, he⟩ := exists_decode_eq_error hc s.arg0 s.arg1
  obtain ⟨hstatus, -⟩ := statusByteLayout { s with host := rest, err := .illegalCmd }
  refine ⟨?_, ?_⟩
  · rw [step_writeCmd hhost]
    exact runCommand_of_error he
  · rw [hstatus]
    cases s.gen.seeded <;> rfl

/-! The steps of an assembled line (R55, R56). -/

/-- A step that answers a next state is taken off the front of a run. -/
theorem run_succ_of_step {s t : State} (n : Nat) (h : step s = .next t) :
    Host.Core.run Sys2Proof.core (n + 1) s = Host.Core.run Sys2Proof.core n t := by
  have hcore : Sys2Proof.core.step s = .next t := h
  simp only [Host.Core.run, hcore]

theorem run_one (s : State) : Host.Core.run Sys2Proof.core 1 s = step s := by
  have hcore : Sys2Proof.core.step s = step s := rfl
  simp only [Host.Core.run, hcore]
  cases step s <;> rfl

/-- A write that a line may leave out costs one step when it is there, and none when it is not. -/
theorem run_optional_write {write : DWord → HostAction} {o : Option DWord} {s t : State} {l : List HostAction}
    (n : Nat) (h : s.host = (o.map write).toList ++ l) (hnone : o = none → t = { s with host := l })
    (hsome : ∀ w, o = some w → act (write w) { s with host := l } = .next t) :
    Host.Core.run Sys2Proof.core ((o.map write).toList.length + n) s = Host.Core.run Sys2Proof.core n t := by
  cases o with
  | none =>
    have hl : s.host = l := h
    rw [hnone rfl, ← hl]
    exact congrArg (Host.Core.run Sys2Proof.core · s) (Nat.zero_add n)
  | some w =>
    have hstep : step s = .next t := (step_of_cons h).trans (hsome w rfl)
    rw [← run_succ_of_step n hstep]
    exact congrArg (Host.Core.run Sys2Proof.core · s) (Nat.add_comm 1 n)

/-- The `ARG0` write of a line, if it has one, leaves the register as the line says. -/
theorem run_writeArg0 {s : State} {o : Option DWord} {l : List HostAction} (n : Nat)
    (h : s.host = (o.map HostAction.writeArg0).toList ++ l) :
    Host.Core.run Sys2Proof.core ((o.map HostAction.writeArg0).toList.length + n) s =
      Host.Core.run Sys2Proof.core n { s with host := l, arg0 := o.getD s.arg0 } :=
  run_optional_write n h (by rintro rfl; rfl) (by rintro w rfl; rfl)

/-- The `ARG1` write of a line, if it has one, leaves the register as the line says. -/
theorem run_writeArg1 {s : State} {o : Option DWord} {l : List HostAction} (n : Nat)
    (h : s.host = (o.map HostAction.writeArg1).toList ++ l) :
    Host.Core.run Sys2Proof.core ((o.map HostAction.writeArg1).toList.length + n) s =
      Host.Core.run Sys2Proof.core n { s with host := l, arg1 := o.getD s.arg1 } :=
  run_optional_write n h (by rintro rfl; rfl) (by rintro w rfl; rfl)

/-- The steps of an assembled line are its `CMD` write on the registers its operand writes leave, for every command. -/
theorem run_hostActions (i : Instr) {s : State} {rest : List HostAction} (h : s.host = hostActions i ++ rest) :
    Host.Core.run Sys2Proof.core (hostActions i).length s =
      runCommand (encode i).cmd
        { s with host := rest, arg0 := (encode i).arg0.getD s.arg0, arg1 := (encode i).arg1.getD s.arg1 } := by
  rw [hostActions, List.append_assoc, List.append_assoc] at h
  rw [hostActions, List.append_assoc, List.length_append, List.length_append, run_writeArg0 _ h,
    run_writeArg1 _ rfl, List.length_singleton, run_one]
  exact step_writeCmd rfl

/-- Settles O9: the line's last write runs its command, because the decoder undoes the assembler on the registers that
its operand writes leave. -/
theorem assembledLineRunsItsCommand : Obligations.AssembledLineRunsItsCommand := by
  intro i s rest hwf hhost
  rw [run_hostActions i hhost]
  exact runCommand_of_ok (decodeUndoesEncode i s.arg0 s.arg1 hwf)

end Sys2Proof.Machine
end

section
/-! Seeding (spec 40_seed_table_init.md R61 to R69): what `SEED` binds, and what `Initialize()` makes of the seed step
by step. -/

namespace Sys2Proof.Machine

/-! The command `SEED` and the first word (R61 to R63). -/

/-- `SEED` is one update of the generator and a normal completion, whatever the state (R61). -/
theorem exec_seed (v : Int) (s : State) : exec (.seed v) s =
    .next { s with gen := { s.gen with seed := wrap32 v, seeded := true, init := false }, err := .ok } := rfl

/-- The status byte of a seeded engine whose last command completed normally. -/
theorem statusByte_seeded_ok : statusByte true .ok = 0x01#8 := by decide

/-- Settles O16: `SEED`'s next state, with the seed read back from its word. -/
theorem seedBindsTheSeed : Obligations.SeedBindsTheSeed := fun v s hwf =>
  ⟨_, exec_seed v s, rfl, wrap32_toInt hwf, statusByte_seeded_ok⟩

/-- The table is a function of the seed's magnitude (R62). -/
theorem seedTable_congr_of_abs32_eq {v w : Word} (h : abs32 v = abs32 w) (t : Table) : seedTable v t = seedTable w t := by
  rw [seedTable, seedTable, firstWord, firstWord, h]

/-- Settles O18: the magnitude as an integer, and the table as a function of it. -/
theorem onlyTheMagnitudeOfTheSeedMatters : Obligations.OnlyTheMagnitudeOfTheSeedMatters :=
  ⟨abs32_toInt, fun g _ _ h => seedTable_congr_of_abs32_eq (BitVec.eq_of_toInt_eq h) g.table⟩

/-- The first word is negative for the magnitudes above `MSEED` (R63). -/
theorem firstWord_neg_iff (v : Word) : (firstWord v).toInt < 0 ↔ 161803398 < (abs32 v).toInt := by
  rw [firstWord_toInt]
  omega

/-- Settles O19: the difference is exact and bounded, and the walk does not store to `T[55]`. -/
theorem firstWordIsExact : Obligations.FirstWordIsExact := by
  intro t v
  obtain ⟨hlo, hhi⟩ := firstWord_bounds v
  exact ⟨firstWord_toInt v, hlo, hhi, firstWord_neg_iff v, walkedTable_read_last (firstWord v) t⟩

/-! The walk (R64). -/

/-- The closed form of the index of iteration `i`, as a cursor (R64). -/
theorem ofNat_eq_walkNext_iterate (i : Nat) : Fin.ofNat 56 (21 * i % 55) = walkNext^[i] (0 : Cursor) := by
  apply Fin.ext
  rw [walkNext_iterate, Fin.val_ofNat]
  omega

/-- The walk does not store to `T[0]`. -/
theorem walk_read_zero (m : Word) (t : Table) : readT (walk 54 0 m 1#32 t) 0 = readT t 0 :=
  walk_read_of_ne 54 0 m 1#32 t 0 fun k hk => walkNext_iterate_ne (i := 0) (by omega) (by omega)

/-- A subtraction whose exact difference is an `i32` does not wrap (R70). -/
theorem sub32_toInt_of_bounds {a b : Word} (h : -2147483648 ≤ a.toInt - b.toInt) (h' : a.toInt - b.toInt ≤ 2147483647) :
    (sub32 a b).toInt = a.toInt - b.toInt := by
  rw [sub32_toInt, if_neg (not_lt.mpr h), if_neg (not_lt.mpr h')]

/-- Two words in range never wrap when subtracted (R69). -/
theorem sub32_toInt_of_inRange {a b : Word} (ha : InRange a) (hb : InRange b) :
    (sub32 a b).toInt = a.toInt - b.toInt := by
  obtain ⟨ha0, ha1⟩ := ha
  obtain ⟨hb0, hb1⟩ := hb
  unfold MAX at ha1 hb1
  exact sub32_toInt_of_bounds (by omega) (by omega)

/-- No subtraction of the walk wraps: the first one takes 1 from the first word, the others are of words in range. -/
theorem sub32_walkWord_toInt {m : Word} (hlo : -1985680249 ≤ m.toInt) (hhi : m.toInt ≤ 161803398) : ∀ n,
    (sub32 (walkWord m n) (walkWord m (n + 1))).toInt = (walkWord m n).toInt - (walkWord m (n + 1)).toInt
  | 0 => by
    have hone : (walkWord m (0 + 1)).toInt = 1 := one_toInt
    have hm : (walkWord m 0).toInt = m.toInt := rfl
    exact sub32_toInt_of_bounds (by omega) (by omega)
  | n + 1 => sub32_toInt_of_inRange (walkWord_inRange hlo hhi n) (walkWord_inRange hlo hhi (n + 1))

/-- Settles O20: the store of each iteration stands, since no later one hits its index, and the walk visits neither
index 0 nor 55. -/
theorem walkStoresTheRecurrence : Obligations.WalkStoresTheRecurrence := by
  intro t v
  obtain ⟨hlo, hhi⟩ := firstWord_bounds v
  refine ⟨fun i hi hi' => ?_, walk_read_zero _ t, walk_read_last _ t⟩
  obtain ⟨n, rfl⟩ := Nat.exists_eq_add_of_le' hi
  rw [ofNat_eq_walkNext_iterate]
  exact ⟨walk_read_iterate _ 54 0 (n + 1) t (by omega) hi hi', walkWord_inRange hlo hhi n,
    sub32_walkWord_toInt hlo hhi n⟩

/-! The mixing passes (R65) and the end of `Initialize()` (R66, R67, R69). -/

/-- The partner is 31 ahead, and 24 behind where that leaves the live words. -/
theorem partner_eq : ∀ i : Cursor,
    partner i = if i.val ≤ 24 then Fin.ofNat 56 (i.val + 31) else Fin.ofNat 56 (i.val - 24) := by decide

/-- Settles O21: the word a pass leaves, with the partner's index written out, and the four passes. -/
theorem mixingPassIsInPlace : Obligations.MixingPassIsInPlace := by
  refine ⟨fun t i hi => ?_, fun g => seedTable_eq g.seed g.table⟩
  rw [mixPass_read t hi, partner_eq]
  split
  · rfl
  · rfl

/-- Settles O22: `Initialize()` field by field; no step of it stores to word 0. -/
theorem initializeSetsCursorsAndFlag : Obligations.InitializeSetsCursorsAndFlag := fun g =>
  ⟨initTable_indexA g, initTable_indexB g, rfl, rfl, initTable_init g, initTable_seed g, initTable_seeded g,
    initTable_read_zero g⟩

/-- Settles O23: a magnitude up to 161803398 gives a first word that is not negative, so all live words are in range
when the mixing begins, and the passes keep that. -/
theorem smallSeedsInitialiseInRange : Obligations.SmallSeedsInitialiseInRange := by
  intro g hsmall _ j hj
  have hnonneg : 0 ≤ (firstWord g.seed).toInt := not_lt.mp fun h => not_lt.mpr hsmall ((firstWord_neg_iff _).mp h)
  have hwalked := walkedTable_inRange_of_nonneg hnonneg (firstWord_bounds g.seed).2 g.table
  rw [initTable_read_eq]
  exact mixPasses_inRange 2 _ (mixPasses_inRange 2 _ hwalked) j hj

end Sys2Proof.Machine
end

section
/-! The raw sample (spec 41_raw_sample.md R70 to R78): what one draw returns and leaves, the range, and the recurrence
that the samples satisfy. -/

namespace Sys2Proof.Machine

/-! The subtraction and the fold (R70, R71). -/

/-- Settles O25: the difference is off by 2^32 at most once, on either side, and the fold is exact. -/
theorem subtractionWrapsAndFoldAddsMaxOnce : Obligations.SubtractionWrapsAndFoldAddsMaxOnce := by
  refine ⟨fun a b => ?_, fold_toInt⟩
  obtain ⟨hlo, hhi⟩ := word_toInt_bounds (sub32 a b)
  refine ⟨hlo, hhi, ?_⟩
  rw [sub32_toInt]
  split
  · omega
  · split
    · omega
    · omega

/-- The adjustment is the spec's `adjust(d)` on integers (R78). -/
theorem adjust_toInt_eq_adjustInt (r : Word) : (adjust r).toInt = adjustInt r.toInt := by
  rw [adjust_toInt, adjustInt, MAX]
  by_cases hmax : r.toInt = 2147483647
  · simp [hmax]
  · rw [if_neg hmax, if_neg hmax]

/-! One raw sample (R75, R77). -/

/-- The adjusted difference of the words under the advanced cursors. -/
theorem rawSample_value {g : Gen} (h : g.init = true) :
    (rawSample g).1 = adjust (sub32 (g.read (nextCursor g.indexA)) (g.read (nextCursor g.indexB))) := by
  rw [rawSample_of_init h, drawWord_value]

/-- A raw sample is written under the advanced `indexA` and nowhere else. -/
theorem rawSample_read {g : Gen} (h : g.init = true) (j : Cursor) :
    (rawSample g).2.read j = if j = nextCursor g.indexA then (rawSample g).1 else g.read j := by
  rw [rawSample_of_init h, drawWord_read]

/-- Settles O27: the first sample initialises the table, and the cursors of the statement are the advanced ones. -/
theorem rawSampleIsTheAdjustedDifference : Obligations.RawSampleIsTheAdjustedDifference := by
  refine ⟨fun g => rawSample_initTable, fun g a b d hinit ha hb hd => ?_⟩
  obtain rfl : a = nextCursor g.indexA := Fin.ext ha
  obtain rfl : b = nextCursor g.indexB := Fin.ext hb
  refine ⟨?_, ?_, fun i hi => ?_, rawSample_indexA hinit, rawSample_indexB hinit, rawSample_init g, rawSample_seed g,
    rawSample_seeded g⟩
  · rw [rawSample_value hinit, adjust_toInt, hd]
  · rw [rawSample_read hinit, if_pos rfl]
  · rw [rawSample_read hinit, if_neg hi]

/-- The difference of two words in range is below `MAX` (R77). -/
theorem sub32_ne_maxWord {a b : Word} (ha : InRange a) (hb : InRange b) : sub32 a b ≠ maxWord := by
  intro e
  have hdiff := sub32_toInt_of_inRange ha hb
  rw [e, maxWord_toInt] at hdiff
  obtain ⟨-, ha⟩ := ha
  obtain ⟨hb, -⟩ := hb
  rw [MAX] at ha
  omega

/-- Settles O28: the adjustment bounds the sample whatever it is given; in range the exact difference lies strictly
between `-MAX` and `MAX`. -/
theorem rawSampleStaysInRange : Obligations.RawSampleStaysInRange := by
  intro g hinit
  rw [rawSample_value hinit]
  refine ⟨adjust_bounds _, fun hrange => ?_⟩
  have ha := hrange hinit _ (nextCursor_ne_zero g.indexA)
  have hb := hrange hinit _ (nextCursor_ne_zero g.indexB)
  exact ⟨sub32_toInt_of_inRange ha hb, sub32_ne_maxWord ha hb, adjust_sub32_inRange ha hb,
    rawSample_tableInRange hrange⟩

/-! The recurrence (R78). The 55 live words are a ring: entry `m + 1` of the lagged sequence stands, while the table
holds it, at place `m` round the ring. -/

/-- The live index `m` places round the ring from index 1. -/
def ringIndex (m : Nat) : Cursor := ⟨m % 55 + 1, by omega⟩

/-- Advancing a cursor moves one place round the ring (R72). -/
theorem nextCursor_ringIndex (m : Nat) : nextCursor (ringIndex m) = ringIndex (m + 1) := by
  apply Fin.ext
  rw [nextCursor_val]
  simp only [ringIndex]
  omega

/-- Going round the ring, index `n` comes back after 55 places and not before. -/
theorem ringIndex_add_succ_eq_iff (n : Nat) {k : Nat} (hk : k < 55) :
    ringIndex (n + (k + 1)) = ringIndex n ↔ k = 54 := by
  rw [Fin.ext_iff]
  simp only [ringIndex]
  omega

theorem ringIndex_ne_zero (m : Nat) : ringIndex m ≠ 0 := fun e => Nat.succ_ne_zero _ (congrArg Fin.val e)

/-- Up to entry 55 the lagged sequence is the table. -/
theorem lagged_succ_of_lt {g : Gen} {k : Nat} (hk : k < 55) : lagged g (k + 1) = g.read (ringIndex k) := by
  have hidx : (⟨k + 1, by omega⟩ : Cursor) = ringIndex k := Fin.ext (congrArg (· + 1) (Nat.mod_eq_of_lt hk).symm)
  rw [lagged, dif_pos (by omega), hidx]

/-- From entry 56 on the lagged sequence is the sequence of raw samples. -/
theorem lagged_add_56 (g : Gen) (n : Nat) : lagged g (n + 56) = nthDraw rawSample n g := by
  rw [lagged, dif_neg (by omega), Nat.add_sub_cancel]

theorem afterDraws_init {g : Gen} (h : g.init = true) (n : Nat) : (afterDraws rawSample n g).init = true := by
  cases n with
  | zero => exact h
  | succ n => rw [afterDraws_succ, rawSample_init]

theorem afterDraws_tableInRange {g : Gen} (h : g.TableInRange) (n : Nat) : (afterDraws rawSample n g).TableInRange := by
  induction n with
  | zero => exact h
  | succ n ih =>
    rw [afterDraws_succ]
    exact rawSample_tableInRange ih

section seeded_cursors
variable {g : Gen} (hinit : g.init = true) (hA : g.indexA = 0) (hB : g.indexB = 21)
include hinit

include hA in
/-- Draw number `n` advances `indexA` to place `n`. -/
theorem nextCursor_afterDraws_indexA (n : Nat) : nextCursor (afterDraws rawSample n g).indexA = ringIndex n := by
  induction n with
  | zero =>
    rw [afterDraws_zero, hA]
    rfl
  | succ n ih => rw [afterDraws_succ, rawSample_indexA (afterDraws_init hinit n), ih, nextCursor_ringIndex]

include hB in
/-- Draw number `n` advances `indexB` to place `n + 21`. -/
theorem nextCursor_afterDraws_indexB (n : Nat) : nextCursor (afterDraws rawSample n g).indexB = ringIndex (n + 21) := by
  induction n with
  | zero =>
    rw [afterDraws_zero, hB]
    rfl
  | succ n ih =>
    rw [afterDraws_succ, rawSample_indexB (afterDraws_init hinit n), ih, nextCursor_ringIndex, Nat.add_right_comm]

include hA

/-- After `n` draws the table holds the 55 entries of the lagged sequence from `n + 1` on: each draw replaces the
oldest one by the next. -/
theorem afterDraws_read_ringIndex (n : Nat) : ∀ k < 55,
    (afterDraws rawSample n g).read (ringIndex (n + k)) = lagged g (n + k + 1) := by
  induction n with
  | zero =>
    intro k hk
    rw [afterDraws_zero, Nat.zero_add, lagged_succ_of_lt hk]
  | succ n ih =>
    intro k hk
    rw [afterDraws_succ, rawSample_read (afterDraws_init hinit n), nextCursor_afterDraws_indexA hinit hA,
      Nat.add_right_comm n 1 k, Nat.add_assoc n k 1]
    by_cases hlast : k = 54
    · rw [if_pos ((ringIndex_add_succ_eq_iff n hk).mpr hlast), hlast, lagged_add_56, nthDraw]
    · rw [if_neg (mt (ringIndex_add_succ_eq_iff n hk).mp hlast)]
      exact ih (k + 1) (by omega)

end seeded_cursors

/-- Settles O29: draw number `n` reads the entries `n + 1` and `n + 22`, both in range, so their difference is exact. -/
theorem laggedFibonacciRecurrence : Obligations.LaggedFibonacciRecurrence := by
  intro g n hinit hA hB hrange hn
  obtain ⟨n, rfl⟩ := Nat.exists_eq_add_of_le' hn
  have hinit' := afterDraws_init hinit n
  have hrange' := afterDraws_tableInRange hrange n hinit'
  have hx := afterDraws_read_ringIndex hinit hA n 0 (by omega)
  have hy := afterDraws_read_ringIndex hinit hA n 21 (by omega)
  rw [Nat.add_zero] at hx
  have hxr : InRange (lagged g (n + 1)) := hx ▸ hrange' _ (ringIndex_ne_zero n)
  have hyr : InRange (lagged g (n + 21 + 1)) := hy ▸ hrange' _ (ringIndex_ne_zero (n + 21))
  calc (lagged g (n + 1 + 55)).toInt = (nthDraw rawSample n g).toInt := by rw [Nat.add_assoc, lagged_add_56]
    _ = (adjust (sub32 (lagged g (n + 1)) (lagged g (n + 21 + 1)))).toInt := by
      rw [nthDraw, rawSample_value hinit', nextCursor_afterDraws_indexA hinit hA,
        nextCursor_afterDraws_indexB hinit hB, hx, hy]
    _ = adjustInt ((lagged g (n + 1)).toInt - (lagged g (n + 1 + 21)).toInt) := by
      rw [adjust_toInt_eq_adjustInt, sub32_toInt_of_inRange hxr hyr, Nat.add_right_comm n 21 1]

/-! The command `NEXT_RAW` (R76). -/

/-- Without a seed `NEXT_RAW` raises `NotSeeded`. -/
theorem exec_nextRaw_of_unseeded {s : State} (h : s.gen.seeded = false) :
    exec .nextRaw s = .next { s with err := .notSeeded } := if_pos h

/-- On a seeded engine `NEXT_RAW` completes with one raw sample. -/
theorem exec_nextRaw_of_seeded {s : State} (h : s.gen.seeded = true) : exec .nextRaw s =
    .next { s with gen := (rawSample s.gen).2, res := resultI32 (rawSample s.gen).1.toInt, err := .ok } :=
  if_neg (by simp [h])

/-- A word's value survives its placement in `RES` (R51). -/
theorem resultI32_word_toInt (v : Word) : (resultI32 v.toInt).toInt = v.toInt :=
  resultI32_toInt (isI32_iff.mpr (word_toInt_bounds v))

/-- A sample in range leaves the upper half of `RES` zero. -/
theorem resultI32_toNat_lt {v : Word} (h : InRange v) : (resultI32 v.toInt).toNat < 2 ^ 31 - 1 := by
  obtain ⟨hlo, hhi⟩ := h
  have e := resultI32_word_toInt v
  rw [MAX] at hhi
  rw [BitVec.toInt_eq_toNat_cond] at e
  omega

/-- Settles O30: the two outcomes of the command, and the value read back from `RES`. -/
theorem nextRawReturnsTheSample : Obligations.NextRawReturnsTheSample := fun _ =>
  ⟨exec_nextRaw_of_unseeded, fun hseeded =>
    ⟨_, exec_nextRaw_of_seeded hseeded, rfl, resultI32_word_toInt _, resultI32_toNat_lt⟩⟩

end Sys2Proof.Machine
end

section
/-! The floating samples and the bounded 32-bit integers (spec 42_unit_and_bounded.md R82 to R90). Every bound is a
comparison of the rounded magnitude with a dyadic number `m / 2 ^ j`, `m < 2 ^ 53`, which rounding never crosses. -/

namespace Sys2Proof.Machine

/-! Rounding against dyadic numbers, with the unit's exponent hidden. -/

theorem roundSig_le_dyadic {a b m j : Nat} (hb : 0 < b) (hm : m < 2 ^ 53) (hj : j ≤ 1074)
    (h : a * 2 ^ j ≤ m * F64.unit * b) : roundSig 53 a b * 2 ^ j ≤ m * F64.unit := by
  obtain ⟨q, -, hU⟩ := F64.unit_split hj
  rw [hU, ← Nat.mul_assoc] at h ⊢
  refine Nat.mul_le_mul_right _ (roundSig_le (by norm_num) hb hm (Nat.le_of_mul_le_mul_right ?_ (Nat.two_pow_pos j)))
  rwa [Nat.mul_right_comm _ b]

theorem le_roundSig_dyadic {a b m j : Nat} (hb : 0 < b) (hm : m < 2 ^ 53) (hj : j ≤ 1074)
    (h : m * F64.unit * b ≤ a * 2 ^ j) : m * F64.unit ≤ roundSig 53 a b * 2 ^ j := by
  obtain ⟨q, -, hU⟩ := F64.unit_split hj
  rw [hU, ← Nat.mul_assoc] at h ⊢
  refine Nat.mul_le_mul_right _ (le_roundSig (by norm_num) hb hm (Nat.le_of_mul_le_mul_right ?_ (Nat.two_pow_pos j)))
  rwa [Nat.mul_right_comm _ b]

/-- A sample in `[0, 1 - 2^-32]`, the range of both floating samples (R89). -/
def F64.IsSample (d : F64) : Prop := d.neg = false ∧ d.mag * 2 ^ 32 ≤ (2 ^ 32 - 1) * F64.unit

@[simp] theorem f64OfInt_neg (n : Int) : (f64OfInt n).neg = decide (n < 0) := rfl

/-! The unit sample (R82, R83). -/

theorem UNIT_SCALE_neg : UNIT_SCALE.neg = false := rfl

theorem UNIT_SCALE_mag : UNIT_SCALE.mag * 2 ^ 62 = (2 ^ 31 + 1) * F64.unit := by decide +kernel

/-- Settles O32: the quotient and its pattern are evaluated. -/
theorem unitScaleValue : Obligations.UnitScaleValue := ⟨by decide +kernel, UNIT_SCALE_neg, UNIT_SCALE_mag⟩

/-- The product of `n` and the scale constant is `n * (2^31 + 1) / 2^62`, before it is rounded. -/
theorem mul_UNIT_SCALE_mag (n j : Nat) :
    n * F64.unit * UNIT_SCALE.mag * 2 ^ j * 2 ^ 62 = n * (2 ^ 31 + 1) * 2 ^ j * (F64.unit * F64.unit) := by
  rw [Nat.mul_right_comm _ (2 ^ j), Nat.mul_assoc (n * F64.unit), UNIT_SCALE_mag]
  ring

theorem unitOf_mag_le {r : Word} {m j : Nat} (hm : m < 2 ^ 53) (hj : j ≤ 1074)
    (h : r.toInt.natAbs * (2 ^ 31 + 1) * 2 ^ j ≤ m * 2 ^ 62) : (unitOf r).mag * 2 ^ j ≤ m * F64.unit := by
  refine roundSig_le_dyadic F64.unit_pos hm hj (Nat.le_of_mul_le_mul_right ?_ (Nat.two_pow_pos 62))
  rw [f64OfInt_mag, mul_UNIT_SCALE_mag]
  calc _ ≤ m * 2 ^ 62 * (F64.unit * F64.unit) := Nat.mul_le_mul_right _ h
    _ = _ := by ring

theorem le_unitOf_mag {r : Word} {m j : Nat} (hm : m < 2 ^ 53) (hj : j ≤ 1074)
    (h : m * 2 ^ 62 ≤ r.toInt.natAbs * (2 ^ 31 + 1) * 2 ^ j) : m * F64.unit ≤ (unitOf r).mag * 2 ^ j := by
  refine le_roundSig_dyadic F64.unit_pos hm hj (Nat.le_of_mul_le_mul_right ?_ (Nat.two_pow_pos 62))
  rw [f64OfInt_mag, mul_UNIT_SCALE_mag]
  calc _ = m * 2 ^ 62 * (F64.unit * F64.unit) := by ring
    _ ≤ _ := Nat.mul_le_mul_right _ h

/-- The unit sample grows: up to `q = 2^30` the number `q / 2^31 + 2^-32` lies between the roundings for `q` and for any
larger `r`, from there on `r / 2^31` does. -/
theorem unitOf_mag_strictMono {q r : Word} (hq : 0 ≤ q.toInt) (hqr : q.toInt < r.toInt) :
    (unitOf q).mag < (unitOf r).mag := by
  have hr := (word_toInt_bounds r).2
  refine lt_of_mul_lt_mul_right (a := 2 ^ 32) ?_ (Nat.zero_le _)
  rcases le_total q.toInt.natAbs (2 ^ 30) with h | h
  · calc (unitOf q).mag * 2 ^ 32 ≤ (2 * q.toInt.natAbs + 1) * F64.unit :=
          unitOf_mag_le (by omega) (by norm_num) (by omega)
      _ < 2 * r.toInt.natAbs * F64.unit := Nat.mul_lt_mul_of_pos_right (by omega) F64.unit_pos
      _ ≤ (unitOf r).mag * 2 ^ 32 := le_unitOf_mag (by omega) (by norm_num) (by omega)
  · calc (unitOf q).mag * 2 ^ 32 ≤ 2 * r.toInt.natAbs * F64.unit :=
          unitOf_mag_le (by omega) (by norm_num) (by omega)
      _ < (2 * r.toInt.natAbs + 1) * F64.unit := Nat.mul_lt_mul_of_pos_right (by omega) F64.unit_pos
      _ ≤ (unitOf r).mag * 2 ^ 32 := le_unitOf_mag (by omega) (by norm_num) (by omega)

theorem unitOf_neg_of_nonneg {r : Word} (h : 0 ≤ r.toInt) : (unitOf r).neg = false := by
  simp [unitOf, mul64, UNIT_SCALE_neg, h]

theorem unitOf_isSample {r : Word} (h : InRange r) : (unitOf r).IsSample := by
  obtain ⟨hlo, hhi⟩ := h
  rw [MAX] at hhi
  exact ⟨unitOf_neg_of_nonneg hlo, unitOf_mag_le (by norm_num) (by norm_num) (by omega)⟩

/-- Settles O33: growth and the bound by dyadic numbers, the two ends evaluated. -/
theorem unitSampleIsIncreasingAndBelowOne : Obligations.UnitSampleIsIncreasingAndBelowOne := by
  refine ⟨fun _ _ hq hqr _ => unitOf_mag_strictMono hq hqr, fun r ⟨hlo, hhi⟩ => ?_, by decide +kernel,
    by decide +kernel⟩
  rw [MAX] at hhi
  exact ⟨unitOf_neg_of_nonneg hlo, unitOf_mag_le (by norm_num) (by norm_num) (by omega)⟩

/-- On a seeded engine `SAMPLE_UNIT` completes with one unit sample. -/
theorem exec_sampleUnit_of_seeded {s : State} (h : s.gen.seeded = true) : exec .sampleUnit s =
    .next { s with gen := (rawSample s.gen).2, res := bits64 (unitOf (rawSample s.gen).1), err := .ok } :=
  if_neg (by simp [h])

/-- Settles O34: the sample is the product by definition. -/
theorem sampleUnitReturnsTheProduct : Obligations.SampleUnitReturnsTheProduct := fun _ => exec_sampleUnit_of_seeded

/-! The large-range sample (R88, R89). -/

theorem f64OfInt_toInt (n : Int) : (f64OfInt n).toInt = n * F64.unit := by
  rw [F64.toInt, f64OfInt_mag, f64OfInt_neg]
  push_cast
  split_ifs with h
  · rw [abs_of_neg (of_decide_eq_true h), neg_mul, neg_neg]
  · rw [abs_of_nonneg (by simpa using h)]

/-- The sum of two integers is exact when binary64 holds it. -/
theorem add64_f64OfInt {a b : Int} (h : (a + b).natAbs < 2 ^ 53) :
    add64 (f64OfInt a) (f64OfInt b) = f64OfInt (a + b) := by
  have hU : (0 : Int) < F64.unit := by exact_mod_cast F64.unit_pos
  have hsum : (f64OfInt a).toInt + (f64OfInt b).toInt = (a + b) * F64.unit := by
    rw [f64OfInt_toInt, f64OfInt_toInt, Int.add_mul]
  rw [add64, hsum]
  by_cases h0 : a + b = 0
  · rw [if_pos (by rw [h0, Int.zero_mul]), h0]
    have : ¬ (a < 0 ∧ b < 0) := by omega
    simpa [f64OfInt] using this
  · have hround := roundSig_int Nat.one_pos h
    rw [Nat.mul_one] at hround
    rw [if_neg (mul_ne_zero h0 hU.ne'), Int.natAbs_mul, Int.natAbs_natCast, hround, f64OfInt]
    simp [mul_neg_iff, F64.unit_pos]

/-- The addition of the large-range sample is exact. -/
theorem largeOf_eq {m : Word} (h : InRange m) (p : Word) : largeOf m p =
    div64 (f64OfInt ((if p.toInt % 2 = 0 then -m.toInt else m.toInt) + 2147483646)) (f64OfInt 4294967293) := by
  obtain ⟨hlo, hhi⟩ := h
  rw [MAX] at hhi
  rw [largeOf, add64_f64OfInt (by rw [LARGE_BIAS]; split_ifs <;> omega), LARGE_BIAS, LARGE_DIV]

/-- Dividing by `LARGE_DIV` an integer below it gives a sample. -/
theorem div64_isSample {n : Int} (hlo : 0 ≤ n) (hhi : n ≤ 4294967292) :
    (div64 (f64OfInt n) (f64OfInt 4294967293)).IsSample := by
  refine ⟨by simp [div64, hlo], ?_⟩
  rw [div64_mag, f64OfInt_mag, f64OfInt_mag]
  refine roundSig_le_dyadic (Nat.mul_pos (by norm_num) F64.unit_pos) (by norm_num) (by norm_num) ?_
  calc n.natAbs * F64.unit * F64.unit * 2 ^ 32 = n.natAbs * 2 ^ 32 * (F64.unit * F64.unit) := by ring
    _ ≤ (2 ^ 32 - 1) * 4294967293 * (F64.unit * F64.unit) := Nat.mul_le_mul_right _ (by omega)
    _ = _ := by ring

theorem largeOf_isSample {m : Word} (h : InRange m) (p : Word) : (largeOf m p).IsSample := by
  rw [largeOf_eq h]
  obtain ⟨hlo, hhi⟩ := h
  rw [MAX] at hhi
  exact div64_isSample (by split_ifs <;> omega) (by split_ifs <;> omega)

/-- Settles O37: the sum stays between 0 and `LARGE_DIV - 1`, so only the division rounds. -/
theorem largeSampleIsOneDivision : Obligations.LargeSampleIsOneDivision :=
  ⟨fun g => ⟨largeSample_gen g, rfl⟩, fun _ p hm => ⟨largeOf_eq hm p, largeOf_isSample hm p⟩⟩

/-! Scaling (R84, R90). -/

theorem scale_natAbs (d : F64) (n : Int) : (scale d n).natAbs = (mul64 d (f64OfInt n)).mag / F64.unit := by
  rw [scale, truncInt]
  split_ifs
  · rw [Int.natAbs_neg, Int.natAbs_natCast]
  · rw [Int.natAbs_natCast]

theorem scale_nonneg {d : F64} {n : Int} (hd : d.neg = false) (hn : 0 ≤ n) : 0 ≤ scale d n := by
  have hneg : (mul64 d (f64OfInt n)).neg = false := by simp [mul64, hd, hn]
  rw [scale, truncInt, hneg]
  exact Int.natCast_nonneg _

theorem scale_zero (d : F64) : scale d 0 = 0 := by
  have hround : roundSig 53 (d.mag * (0 * F64.unit)) F64.unit ≤ 0 * 2 ^ 0 :=
    roundSig_le (by norm_num) F64.unit_pos (by norm_num) (by simp)
  rw [← Int.natAbs_eq_zero, scale_natAbs, mul64_mag, f64OfInt_mag, Int.natAbs_zero, Nat.le_zero.mp hround,
    Nat.zero_div]

/-- The number `n - 2^-j` separates the product from `n` when binary64 holds it and it is at least `n - n * 2^-32`. -/
theorem mul64_mag_lt_of_le {d : F64} {n : Int} {j : Nat} (hd : d.mag * 2 ^ 32 ≤ (2 ^ 32 - 1) * F64.unit)
    (hj : j ≤ 1074) (hlo : 2 ^ 32 ≤ n.natAbs * 2 ^ j) (hhi : n.natAbs * 2 ^ j ≤ 2 ^ 53) :
    (mul64 d (f64OfInt n)).mag < n.natAbs * F64.unit := by
  obtain ⟨m, hm⟩ : ∃ m, n.natAbs * 2 ^ j = m + 1 := Nat.exists_eq_add_of_le' (le_trans (by norm_num) hlo)
  have hle : (mul64 d (f64OfInt n)).mag * 2 ^ j ≤ m * F64.unit := by
    refine roundSig_le_dyadic F64.unit_pos (by omega) hj (Nat.le_of_mul_le_mul_right ?_ (Nat.two_pow_pos 32))
    rw [f64OfInt_mag]
    calc d.mag * (n.natAbs * F64.unit) * 2 ^ j * 2 ^ 32
        = d.mag * 2 ^ 32 * (n.natAbs * 2 ^ j * F64.unit) := by ring
      _ ≤ (2 ^ 32 - 1) * F64.unit * ((m + 1) * F64.unit) := by rw [hm]; exact Nat.mul_le_mul_right _ hd
      _ = (2 ^ 32 - 1) * (m + 1) * (F64.unit * F64.unit) := by ring
      _ ≤ m * 2 ^ 32 * (F64.unit * F64.unit) := Nat.mul_le_mul_right _ (by omega)
      _ = m * F64.unit * F64.unit * 2 ^ 32 := by ring
  refine lt_of_mul_lt_mul_right (a := 2 ^ j) (hle.trans_lt ?_) (Nat.zero_le _)
  rw [Nat.mul_right_comm, hm]
  exact Nat.mul_lt_mul_of_pos_right (Nat.lt_succ_self m) F64.unit_pos

/-- A sample scaled by `n` truncates below `n`, whatever the signs: `j = 32` separates for small `n`, `j = 21` for
large. -/
theorem scale_natAbs_lt {d : F64} {n : Int} (hd : d.mag * 2 ^ 32 ≤ (2 ^ 32 - 1) * F64.unit) (hlo : 1 ≤ n.natAbs)
    (hhi : n.natAbs < 2 ^ 32) : (scale d n).natAbs < n.natAbs := by
  rw [scale_natAbs, Nat.div_lt_iff_lt_mul F64.unit_pos]
  rcases le_total n.natAbs (2 ^ 21) with h | h
  · exact mul64_mag_lt_of_le (j := 32) hd (by norm_num) (by omega) (Nat.mul_le_mul_right _ h)
  · exact mul64_mag_lt_of_le (j := 21) hd (by norm_num) (by omega) (Nat.mul_le_mul_right _ hhi.le)

theorem scale_bounds {d : F64} {n : Int} (hd : d.IsSample) (hlo : 0 ≤ n) (hhi : n ≤ 4294967295) :
    0 ≤ scale d n ∧ scale d n ≤ max 0 (n - 1) := by
  obtain ⟨hneg, hmag⟩ := hd
  have hnonneg := scale_nonneg hneg hlo
  rcases hlo.eq_or_lt with rfl | hpos
  · simp [scale_zero]
  · have hlt := scale_natAbs_lt hmag (n := n) (by omega) (by omega)
    omega

/-- Settles O35: the bound for every sample, and the largest large-range sample reaches it. -/
theorem scaledIntegerIsBelowTheRange : Obligations.ScaledIntegerIsBelowTheRange := by
  refine ⟨fun d n hneg hmag hlo hhi => ?_, scale_zero, largeOf 2147483646#32 1#32, by decide +kernel⟩
  obtain ⟨h0, h1⟩ := scale_bounds ⟨hneg, hmag⟩ (n := n) (by omega) (by omega)
  omega

/-! The commands `NEXT_MAX` and `NEXT_RANGE` (R84 to R86). -/

/-- From any table whatever, a raw sample lies in `[-1, MAX)`. -/
theorem rawSample_bounds (g : Gen) : -1 ≤ (rawSample g).1.toInt ∧ (rawSample g).1.toInt < MAX := by
  rw [rawSample, drawWord_value]
  exact adjust_bounds _

/-- On a seeded engine `NEXT_MAX` with a bound from 0 up completes with one bounded draw. -/
theorem exec_nextMax_of_seeded {s : State} {hi : Int} (h : s.gen.seeded = true) (hhi : 0 ≤ hi) :
    exec (.nextMax hi) s = .next { s with
      gen := (rawSample s.gen).2
      res := resultI32 (scale (unitOf (rawSample s.gen).1) hi)
      err := .ok } :=
  (if_neg (by simp [h])).trans (if_neg (not_lt.mpr hhi))

/-- A scaled unit sample is an `i32` even for the raw sample -1 that a table out of range can give. -/
theorem scale_unitOf_isI32 (g : Gen) {n : Int} (h : isI32 n = true) :
    isI32 (scale (unitOf (rawSample g).1) n) = true := by
  obtain ⟨hlo, hhi⟩ := isI32_iff.mp h
  obtain ⟨hrlo, hrhi⟩ := rawSample_bounds g
  rw [MAX] at hrhi
  rw [isI32_iff]
  rcases eq_or_ne n 0 with rfl | hn
  · simp [scale_zero]
  · have hlt := scale_natAbs_lt (d := unitOf (rawSample g).1) (n := n)
      (unitOf_mag_le (by norm_num) (by norm_num) (by omega)) (by omega) (by omega)
    omega

/-- Settles O36: the command completes with an `i32`, and a raw sample in range gives a sample. -/
theorem nextMaxReturnsTheScaledSample : Obligations.NextMaxReturnsTheScaledSample := by
  intro s hi hseeded hwf hhi
  have hres := resultI32_toInt (scale_unitOf_isI32 s.gen hwf)
  refine ⟨_, exec_nextMax_of_seeded hseeded hhi, rfl, hres, fun hr => ?_⟩
  rw [hres]
  exact scale_bounds (unitOf_isSample hr) hhi ((isI32_iff.mp hwf).2.trans (by norm_num))

/-- On a seeded engine `NEXT_RANGE` with ordered bounds completes with the scaled sample of its path. -/
theorem exec_nextRange_of_seeded {s : State} {lo hi : Int} (h : s.gen.seeded = true) (hle : lo ≤ hi) :
    exec (.nextRange lo hi) s = .next { s with
      gen := (rangeSample (hi - lo) s.gen).2
      res := resultI32 (scale (rangeSample (hi - lo) s.gen).1 (hi - lo) + lo)
      err := .ok } :=
  (if_neg (by simp [h])).trans (if_neg (not_lt.mpr hle))

theorem rangeSample_of_le {range : Int} (h : range ≤ MAX) (g : Gen) :
    (rangeSample range g).1 = unitOf (nthDraw rawSample 0 g) := by
  rw [rangeSample, if_pos h]
  rfl

theorem rangeSample_of_lt {range : Int} (h : MAX < range) (g : Gen) :
    (rangeSample range g).1 = largeOf (nthDraw rawSample 0 g) (nthDraw rawSample 1 g) := by
  rw [rangeSample, if_neg (not_le.mpr h)]
  rfl

/-- Only the first raw sample, the magnitude, has to be in range. -/
theorem rangeSample_isSample (range : Int) {g : Gen} (h : InRange (nthDraw rawSample 0 g)) :
    (rangeSample range g).1.IsSample := by
  rcases le_or_gt range MAX with hr | hr
  · rw [rangeSample_of_le hr]
    exact unitOf_isSample h
  · rw [rangeSample_of_lt hr]
    exact largeOf_isSample h _

/-- Settles O38: the offset value lies between the bounds, so it is an `i32` and survives its placement in `RES`. -/
theorem nextRangeReturnsTheOffsetSample : Obligations.NextRangeReturnsTheOffsetSample := by
  intro s lo hi hseeded hwf hle
  obtain ⟨hlo32, hhi32⟩ : isI32 lo = true ∧ isI32 hi = true := by simpa [Instr.wf] using hwf
  rw [isI32_iff] at hlo32 hhi32
  refine ⟨_, exec_nextRange_of_seeded hseeded hle, by simp only [rangeSample_gen], fun hfirst _ => ?_⟩
  obtain ⟨hnonneg, hlt⟩ := scale_bounds (rangeSample_isSample (hi - lo) hfirst) (n := hi - lo) (by omega) (by omega)
  have hres := resultI32_toInt (v := scale (rangeSample (hi - lo) s.gen).1 (hi - lo) + lo) (isI32_iff.mpr (by omega))
  rw [hres]
  refine ⟨fun h => by rw [rangeSample_of_le h], fun h => by rw [rangeSample_of_lt h], by omega, by omega⟩

end Sys2Proof.Machine
end

section
/-! The 64-bit composition and the 64-bit commands (spec 43_int64.md R96 to R99). A unit sample scaled by a power of
two is exact, so each piece is a floor; both commands are one loop of shifted compositions. -/

namespace Sys2Proof.Machine

/-! The composition (R96). -/

/-- A power of two only moves the exponent, so this product is not rounded. -/
theorem mul64_unitOf_two_pow_mag (r : Word) (w : Nat) :
    (mul64 (unitOf r) (f64OfInt (2 ^ w))).mag = (unitOf r).mag * 2 ^ w := by
  obtain ⟨m, k, hmag, hm⟩ : ∃ m k, (unitOf r).mag = m * 2 ^ k ∧ m < 2 ^ 53 :=
    roundSig_rep _ (by norm_num) F64.unit_pos
  have hpow : ((2 : Int) ^ w).natAbs = 2 ^ w := by rw [Int.natAbs_pow]; rfl
  rw [mul64_mag, f64OfInt_mag, hpow, hmag, ← Nat.mul_assoc, Nat.mul_assoc m, ← pow_add]
  exact roundSig_exact (by norm_num) F64.unit_pos hm

/-- The first `w` bits of a unit sample. -/
def leadingBits (w : Nat) (r : Word) : Nat := (unitOf r).mag * 2 ^ w / F64.unit

theorem scale_unitOf_two_pow {r : Word} (h : InRange r) (w : Nat) : scale (unitOf r) (2 ^ w) = leadingBits w r := by
  have hnonneg : 0 ≤ scale (unitOf r) (2 ^ w) := scale_nonneg (unitOf_neg_of_nonneg h.1) (by positivity)
  rw [← Int.natAbs_of_nonneg hnonneg, scale_natAbs, mul64_unitOf_two_pow_mag, leadingBits]

/-- A unit sample is below 1. -/
theorem leadingBits_lt {r : Word} (h : InRange r) (w : Nat) : leadingBits w r < 2 ^ w := by
  have hunit := F64.unit_pos
  have hmag : (unitOf r).mag < F64.unit := by
    have := (unitOf_isSample h).2
    omega
  rw [leadingBits, Nat.div_lt_iff_lt_mul hunit, Nat.mul_comm]
  exact Nat.mul_lt_mul_of_pos_left hmag (Nat.two_pow_pos w)

theorem wrap64_natCast_toNat {n : Nat} (h : n < 2 ^ 64) : (wrap64 n).toNat = n := by
  rw [wrap64, BitVec.ofInt_natCast, BitVec.toNat_ofNat, Nat.mod_eq_of_lt h]

/-- The pieces do not overlap, so the disjunction is a sum. -/
theorem compose64_toNat {a b c : Nat} (ha : a < 2 ^ 22) (hb : b < 2 ^ 22) (hc : c < 2 ^ 20) :
    (compose64 a b c).toNat = a + b * 2 ^ 22 + c * 2 ^ 44 := by
  have hlow : b <<< 22 + a = b <<< 22 ||| a := Nat.shiftLeft_add_eq_or_of_lt ha b
  have hall : c <<< 44 + (b <<< 22 + a) = c <<< 44 ||| (b <<< 22 + a) :=
    Nat.shiftLeft_add_eq_or_of_lt (by omega) c
  simp only [compose64, U64_W0, U64_W1, BitVec.toNat_or, BitVec.toNat_shiftLeft]
  rw [wrap64_natCast_toNat (by omega), wrap64_natCast_toNat (by omega), wrap64_natCast_toNat (by omega),
    Nat.mod_eq_of_lt (by omega), Nat.mod_eq_of_lt (by omega), Nat.or_comm a, ← hlow, Nat.or_comm, ← hall]
  omega

theorem boundedDraw_value (m : Int) (g : Gen) : (boundedDraw m g).1 = scale (unitOf (nthDraw rawSample 0 g)) m := rfl

theorem uint64Draw_value (g : Gen) : (uint64Draw g).1 =
    compose64 (scale (unitOf (nthDraw rawSample 0 g)) (2 ^ U64_W0))
      (scale (unitOf (nthDraw rawSample 1 g)) (2 ^ U64_W1))
      (scale (unitOf (nthDraw rawSample 2 g)) (2 ^ U64_W2)) := by
  simp only [uint64Draw, boundedDraw_value]
  rfl

/-- Settles O39: each piece is the floor of an exact product and fits its field. -/
theorem compositionLayout : Obligations.CompositionLayout := fun g => ⟨uint64Draw_gen g, fun h0 h1 h2 => by
  rw [uint64Draw_value, scale_unitOf_two_pow h0, scale_unitOf_two_pow h1, scale_unitOf_two_pow h2]
  exact compose64_toNat (leadingBits_lt h0 22) (leadingBits_lt h1 22) (leadingBits_lt h2 20)⟩

/-! The bit count (R99). -/

theorem ceilLog2_le_iff {x b : Nat} : ceilLog2 x ≤ b ↔ x ≤ 2 ^ b := by
  have hpow := Nat.two_pow_pos b
  unfold ceilLog2
  split_ifs with h
  · omega
  · rw [Nat.succ_le_iff, Nat.log2_lt (by omega)]
    omega

/-- Settles O40: the bit count lies at or below `b` exactly when `2 ^ b` reaches `x`. -/
theorem ceilLog2IsTheLeastExponent : Obligations.CeilLog2IsTheLeastExponent := fun _ _ =>
  ⟨ceilLog2_le_iff.mp le_rfl, fun _ => ceilLog2_le_iff.mpr⟩

theorem ceilLog2_eq {x b : Nat} (hle : x ≤ 2 ^ b) (hlt : 2 ^ (b - 1) < x) : ceilLog2 x = b := by
  have hupper := ceilLog2_le_iff.mpr hle
  have hlower : ¬ ceilLog2 x ≤ b - 1 := fun h => hlt.not_ge (ceilLog2_le_iff.mp h)
  omega

/-! The loop of both commands (R97, R98). -/

theorem nthDraw_shiftedDraw_toNat (k n : Nat) (g : Gen) :
    (nthDraw (shiftedDraw k) n g).toNat = (nthDraw uint64Draw n g).toNat / 2 ^ k := by
  rw [nthDraw_shiftedDraw, BitVec.toNat_ushiftRight, Nat.shiftRight_eq_div_pow]

theorem acceptInt64_iff (r : DWord) : acceptInt64 r = true ↔ r.toNat ≠ 2 ^ 63 - 1 :=
  bne_iff_ne.trans (not_congr BitVec.toNat_inj.symm)

theorem acceptBelow_iff (ex : Nat) (r : DWord) : acceptBelow ex r = true ↔ r.toNat < ex := decide_eq_true_iff

theorem firstAccepted_acceptInt64_iff {n : Nat} {g : Gen} : FirstAccepted (shiftedDraw 1) acceptInt64 n g ↔
    (nthDraw uint64Draw n g).toNat / 2 ≠ 2 ^ 63 - 1 ∧
      ∀ k, k < n → (nthDraw uint64Draw k g).toNat / 2 = 2 ^ 63 - 1 := by
  simp only [FirstAccepted, ← Bool.not_eq_true, acceptInt64_iff, not_not, nthDraw_shiftedDraw_toNat, pow_one]

theorem firstAccepted_acceptBelow_iff {shift ex n : Nat} {g : Gen} :
    FirstAccepted (shiftedDraw shift) (acceptBelow ex) n g ↔
      (nthDraw uint64Draw n g).toNat / 2 ^ shift < ex ∧
        ∀ k, k < n → ¬ (nthDraw uint64Draw k g).toNat / 2 ^ shift < ex := by
  simp only [FirstAccepted, ← Bool.not_eq_true, acceptBelow_iff, nthDraw_shiftedDraw_toNat]

/-- The loop completes with the first accepted value, counted in compositions. -/
theorem completeLoop_shiftedDraw {shift n : Nat} {accept : DWord → Bool} (place : DWord → DWord) {s : State}
    (h : FirstAccepted (shiftedDraw shift) accept n s.gen) :
    completeLoop (shiftedDraw shift) accept place s = .next { s with
      gen := afterDraws uint64Draw (n + 1) s.gen
      res := place (nthDraw (shiftedDraw shift) n s.gen)
      err := .ok } := by
  rw [completeLoop_eq_next _ _ _ _ h.lt_redrawBound h, afterDraws_shiftedDraw]

/-! The command `NEXT_INT64` (R97). -/

theorem exec_nextInt64_of_unseeded {s : State} (h : s.gen.seeded = false) :
    exec .nextInt64 s = .next { s with err := .notSeeded } := if_pos h

theorem exec_nextInt64_of_seeded {s : State} (h : s.gen.seeded = true) :
    exec .nextInt64 s = completeLoop (shiftedDraw 1) acceptInt64 id s := if_neg (by simp [h])

/-- Settles O41: the loop accepts every shifted composition but the largest. -/
theorem nextInt64ReturnsTheFirstAccepted : Obligations.NextInt64ReturnsTheFirstAccepted := by
  refine ⟨fun _ => exec_nextInt64_of_unseeded, fun s n hseeded haccepted hrejected => ?_⟩
  have hloop := completeLoop_shiftedDraw id (firstAccepted_acceptInt64_iff.mpr ⟨haccepted, hrejected⟩)
  have hvalue := nthDraw_shiftedDraw_toNat 1 n s.gen
  have hdraw := (nthDraw uint64Draw n s.gen).isLt
  refine ⟨_, (exec_nextInt64_of_seeded hseeded).trans hloop, rfl, hvalue, ?_⟩
  rw [id_eq, hvalue]
  omega

/-! The command `NEXT_INT64_RANGE` (R98). -/

section range
variable {s : State} {lo hi : Int}

theorem nextInt64Range_wf_iff : (Instr.nextInt64Range lo hi).wf = true ↔ isI64 lo = true ∧ isI64 hi = true :=
  Bool.and_eq_true_iff

/-- Ordered bounds of 0 or 1 apart: no loop, and the generator is kept. -/
theorem exec_nextInt64Range_of_le_one (hseeded : s.gen.seeded = true) (hle : lo ≤ hi)
    (hex : exclusiveRange lo hi ≤ 1) :
    exec (.nextInt64Range lo hi) s = .next { s with res := wrap64 lo, err := .ok } :=
  (if_neg (by simp [hseeded])).trans ((if_neg hle.not_gt).trans (if_neg hex.not_gt))

/-- A larger range: the loop, on compositions cut to the range's bit count. -/
theorem exec_nextInt64Range_of_one_lt (hseeded : s.gen.seeded = true) (hle : lo ≤ hi)
    (hex : 1 < exclusiveRange lo hi) : exec (.nextInt64Range lo hi) s =
      completeLoop (shiftedDraw (64 - ceilLog2 (exclusiveRange lo hi))) (acceptBelow (exclusiveRange lo hi))
        (fun r => r + wrap64 lo) s :=
  (if_neg (by simp [hseeded])).trans ((if_neg hle.not_gt).trans (if_pos hex))

theorem exclusiveRange_eq_of_wf (hwf : (Instr.nextInt64Range lo hi).wf = true) (hle : lo ≤ hi) :
    (exclusiveRange lo hi : Int) = hi - lo := by
  obtain ⟨hlo, hhi⟩ := nextInt64Range_wf_iff.mp hwf
  exact exclusiveRange_eq hle hlo hhi

/-- The 64-bit adder gives the exact sum where an `i64` holds it. -/
theorem add_wrap64_toInt {r : DWord} (h : isI64 (lo + r.toNat) = true) : (r + wrap64 lo).toInt = lo + r.toNat := by
  have hsum : r + wrap64 lo = wrap64 (lo + r.toNat) := by
    rw [wrap64, wrap64, BitVec.ofInt_add, BitVec.ofInt_natCast, BitVec.ofNat_toNat, BitVec.setWidth_eq, BitVec.add_comm]
  rw [hsum, wrap64_toInt h]

/-- The command completes with the first draw below the range, cut to the range's bit count. -/
theorem exec_nextInt64Range_of_firstBelow {bits n : Nat} (hseeded : s.gen.seeded = true) (hlt : lo < hi)
    (hex : 1 < exclusiveRange lo hi) (hbits : ceilLog2 (exclusiveRange lo hi) = bits)
    (hbelow : (nthDraw uint64Draw n s.gen).toNat / 2 ^ (64 - bits) < exclusiveRange lo hi)
    (hrejected : ∀ k, k < n → ¬ (nthDraw uint64Draw k s.gen).toNat / 2 ^ (64 - bits) < exclusiveRange lo hi) :
    exec (.nextInt64Range lo hi) s = .next { s with
      gen := afterDraws uint64Draw (n + 1) s.gen
      res := nthDraw (shiftedDraw (64 - bits)) n s.gen + wrap64 lo
      err := .ok } := by
  rw [exec_nextInt64Range_of_one_lt hseeded hlt.le hex, hbits]
  exact completeLoop_shiftedDraw _ (firstAccepted_acceptBelow_iff.mpr ⟨hbelow, hrejected⟩)

end range

/-- Settles O42: the exclusive range is 0 or 1, so the command takes the branch without a loop. -/
theorem degenerateInt64RangeDrawsNothing : Obligations.DegenerateInt64RangeDrawsNothing := by
  intro s lo hi hseeded hwf hle hdegenerate
  obtain ⟨hlo, -⟩ := nextInt64Range_wf_iff.mp hwf
  have hex := exclusiveRange_eq_of_wf hwf hle
  exact ⟨_, exec_nextInt64Range_of_le_one hseeded hle (by omega), rfl, wrap64_toInt hlo⟩

/-- Settles O43: the bounds on the range fix its bit count, and a value below the range is placed without a wrap. -/
theorem nextInt64RangeReturnsTheFirstBelow : Obligations.NextInt64RangeReturnsTheFirstBelow := by
  intro s lo hi bits n hseeded hwf hlt hle_pow hpow_lt hbelow hrejected
  have hex := exclusiveRange_eq_of_wf hwf (by omega)
  obtain ⟨hlo, hhi⟩ := nextInt64Range_wf_iff.mp hwf
  rw [isI64_iff] at hlo hhi
  rw [← hex] at hle_pow hpow_lt hbelow
  simp only [← hex] at hrejected
  have hbits : ceilLog2 (exclusiveRange lo hi) = bits :=
    ceilLog2_eq (by exact_mod_cast hle_pow) (by exact_mod_cast hpow_lt)
  have hexec := exec_nextInt64Range_of_firstBelow hseeded (by omega) (by omega) hbits (by exact_mod_cast hbelow)
    (by exact_mod_cast hrejected)
  have hvalue : ((nthDraw (shiftedDraw (64 - bits)) n s.gen).toNat : Int) =
      (nthDraw uint64Draw n s.gen).toNat / 2 ^ (64 - bits) := by
    rw [nthDraw_shiftedDraw_toNat]
    norm_cast
  rw [← hvalue] at hbelow ⊢
  have hres := add_wrap64_toInt (lo := lo) (r := nthDraw (shiftedDraw (64 - bits)) n s.gen) (isI64_iff.mpr (by omega))
  refine ⟨_, hexec, rfl, hres, ?_⟩
  rw [hres]
  omega

/-- Settles O44: `k` bits of a composition are below `2 ^ k`, so the first draw is accepted. -/
theorem powerOfTwoRangeTakesOneDraw : Obligations.PowerOfTwoRangeTakesOneDraw := by
  intro s lo k hseeded hwf hk
  obtain ⟨hlo, hhi⟩ := nextInt64Range_wf_iff.mp hwf
  rw [isI64_iff] at hlo hhi
  have hrange : (exclusiveRange lo (lo + 2 ^ k) : Int) = 2 ^ k := by
    rw [exclusiveRange_eq_of_wf hwf (le_add_of_nonneg_right (by positivity)), add_sub_cancel_left]
  have hex : exclusiveRange lo (lo + 2 ^ k) = 2 ^ k := by exact_mod_cast hrange
  have hk64 : k < 64 := (Nat.pow_lt_pow_iff_right Nat.one_lt_two).mp (by omega)
  have hone : 1 < exclusiveRange lo (lo + 2 ^ k) := hex ▸ Nat.one_lt_two_pow (by omega)
  have hbits : ceilLog2 (exclusiveRange lo (lo + 2 ^ k)) = k :=
    ceilLog2_eq hex.le (hex ▸ Nat.pow_lt_pow_right Nat.one_lt_two (by omega))
  have hbelow : (nthDraw uint64Draw 0 s.gen).toNat / 2 ^ (64 - k) < 2 ^ k := by
    refine Nat.div_lt_of_lt_mul ?_
    rw [← pow_add, Nat.sub_add_cancel hk64.le]
    exact (nthDraw uint64Draw 0 s.gen).isLt
  exact ⟨_, exec_nextInt64Range_of_firstBelow (n := 0) hseeded (by omega) hone hbits (hex ▸ hbelow) (by simp), rfl,
    uint64Draw_gen s.gen⟩

end Sys2Proof.Machine
end

section
/-! The single-precision sample (spec 44_single_and_bytes.md R105 to R107). Rounding and the unit sample keep the order,
so each threshold is the evaluation of the two numbers beside it. -/

namespace Sys2Proof.Machine

/-! Narrowing (R105). -/

theorem F32.perUnit_pos : 0 < F32.perUnit := by
  unfold F32.perUnit
  positivity

theorem f32OfF64_neg (x : F64) : (f32OfF64 x).neg = x.neg := rfl

/-- Narrowing keeps the order of magnitudes. -/
theorem f32OfF64_mag_mono {x y : F64} (h : x.mag ≤ y.mag) : (f32OfF64 x).mag ≤ (f32OfF64 y).mag :=
  roundSig_mono (by norm_num) F32.perUnit_pos h

/-- The magnitude `t` of `1 - 2^-25` lies half way between 1.0 and the binary32 number before it: the tie goes to 1.0,
and the next smaller magnitude does not. -/
theorem exists_tie_below_one : ∃ t, t * 2 ^ 25 = (2 ^ 25 - 1) * F64.unit ∧
    (f32OfF64 ⟨false, t⟩).mag = F32.unit ∧ (f32OfF64 ⟨false, t - 1⟩).mag < F32.unit :=
  ⟨(2 ^ 25 - 1) * F64.unit / 2 ^ 25, by decide +kernel⟩

theorem f32OfF64_one_mag : (f32OfF64 ⟨false, F64.unit⟩).mag = F32.unit := by decide +kernel

theorem F32.eq_one_iff {f : F32} (h : f.neg = false) : f = F32.one ↔ f.mag = F32.unit := by
  obtain ⟨neg, mag⟩ := f
  obtain rfl : neg = false := h
  simp [F32.one]

/-- A number below 1 narrows to 1.0 from the tie on. -/
theorem f32OfF64_eq_one_iff {d : F64} (hneg : d.neg = false) (hlt : d.mag < F64.unit) :
    f32OfF64 d = F32.one ↔ (2 ^ 25 - 1) * F64.unit ≤ d.mag * 2 ^ 25 := by
  obtain ⟨t, ht, htie, hbelow⟩ := exists_tie_below_one
  rw [F32.eq_one_iff ((f32OfF64_neg d).trans hneg), ← ht, Nat.mul_le_mul_right_iff (Nat.two_pow_pos 25)]
  constructor
  · intro hone
    by_contra hd
    exact hbelow.not_ge (hone ▸ f32OfF64_mag_mono (Nat.le_sub_one_of_lt (not_le.mp hd)))
  · intro hd
    refine le_antisymm (f32OfF64_one_mag ▸ f32OfF64_mag_mono hlt.le) ?_
    exact htie ▸ f32OfF64_mag_mono (x := ⟨false, t⟩) hd

/-! The rejected raw values (R107). -/

theorem unitOf_mag_mono {q r : Word} (hq : 0 ≤ q.toInt) (hqr : q.toInt ≤ r.toInt) :
    (unitOf q).mag ≤ (unitOf r).mag := by
  rcases hqr.eq_or_lt with h | h
  · rw [BitVec.eq_of_toInt_eq h]
  · exact (unitOf_mag_strictMono hq h).le

theorem unitOf_mag_lt_unit {r : Word} (h : InRange r) : (unitOf r).mag < F64.unit := by
  have hunit := F64.unit_pos
  have := (unitOf_isSample h).2
  omega

/-- The unit sample reaches the tie at 2147483583. -/
theorem tie_le_unitOf_mag_iff {r : Word} (h : InRange r) :
    (2 ^ 25 - 1) * F64.unit ≤ (unitOf r).mag * 2 ^ 25 ↔ 2147483583 ≤ r.toInt := by
  have hreached : (2 ^ 25 - 1) * F64.unit ≤ (unitOf 2147483583#32).mag * 2 ^ 25 := by decide +kernel
  have hbelow : (unitOf 2147483582#32).mag * 2 ^ 25 < (2 ^ 25 - 1) * F64.unit := by decide +kernel
  have hfirst : (2147483583#32).toInt = 2147483583 := by decide
  have hlast : (2147483582#32).toInt = 2147483582 := by decide
  constructor
  · intro hr
    by_contra hlt
    have := unitOf_mag_mono h.1 (r := 2147483582#32) (by omega)
    exact hbelow.not_ge (hr.trans (Nat.mul_le_mul_right _ this))
  · intro hr
    have := unitOf_mag_mono (q := 2147483583#32) (r := r) (by decide) (by omega)
    exact hreached.trans (Nat.mul_le_mul_right _ this)

theorem f32OfF64_unitOf_eq_one_iff {r : Word} (h : InRange r) :
    f32OfF64 (unitOf r) = F32.one ↔ 2147483583 ≤ r.toInt :=
  (f32OfF64_eq_one_iff (unitOf_neg_of_nonneg h.1) (unitOf_mag_lt_unit h)).trans (tie_le_unitOf_mag_iff h)

theorem acceptSingle_iff (f : F32) : acceptSingle f = true ↔ f ≠ F32.one := bne_iff_ne

theorem acceptSingle_eq_false_iff (f : F32) : acceptSingle f = false ↔ f = F32.one := by
  rw [← Bool.not_eq_true, acceptSingle_iff, not_not]

/-- Settles O45: narrowing reaches 1.0 at the tie, and the unit sample reaches the tie at the first of the 64 values. -/
theorem singleRejectsExactlySixtyFourRawValues : Obligations.SingleRejectsExactlySixtyFourRawValues :=
  ⟨fun _ => f32OfF64_eq_one_iff, fun _ h => (acceptSingle_eq_false_iff _).trans (f32OfF64_unitOf_eq_one_iff h)⟩

/-! The pattern of an accepted sample (R106). -/

/-- A number with more bits than the fraction field: its exponent alone confines the two fields. -/
theorem ieeeFields_bounds {f m : Nat} (h : f ≤ Nat.log2 m) (hm : m ≠ 0) :
    (Nat.log2 m - f + 1) * 2 ^ f ≤ ieeeFields f m ∧ ieeeFields f m < (Nat.log2 m - f + 2) * 2 ^ f := by
  obtain ⟨e, he⟩ := Nat.exists_eq_add_of_le h
  have hlo : 2 ^ f ≤ m / 2 ^ e := by
    rw [Nat.le_div_iff_mul_le (Nat.two_pow_pos e), ← pow_add, ← he]
    exact Nat.log2_self_le hm
  have hhi : m / 2 ^ e < 2 * 2 ^ f := by
    rw [Nat.div_lt_iff_lt_mul (Nat.two_pow_pos e), Nat.mul_assoc, ← pow_add, ← he, ← pow_succ']
    exact Nat.lt_log2_self
  rw [ieeeFields, he, Nat.add_sub_cancel_left, Nat.add_mul, Nat.add_mul, Nat.one_mul]
  omega

theorem bits32f_toNat {x : F32} (h : x.neg = false) : (bits32f x).toNat = ieeeFields 23 x.mag % 2 ^ 31 := by
  rw [bits32f, h, BitVec.toNat_append, BitVec.toNat_ofNat]
  simp

/-- The patterns of the numbers from `2^-31` up and below 1. -/
theorem bits32f_toNat_bounds {x : F32} (hneg : x.neg = false) (hlo : 2 ^ 118 ≤ x.mag) (hhi : x.mag < 2 ^ 149) :
    0x30000000 ≤ (bits32f x).toNat ∧ (bits32f x).toNat ≤ 0x3F7FFFFF := by
  have hm : x.mag ≠ 0 := (Nat.two_pow_pos 118).trans_le hlo |>.ne'
  have hlog : 118 ≤ Nat.log2 x.mag := (Nat.le_log2 hm).mpr hlo
  have hlog' : Nat.log2 x.mag < 149 := (Nat.log2_lt hm).mpr hhi
  obtain ⟨hfields, hfields'⟩ := ieeeFields_bounds (f := 23) (by omega) hm
  rw [bits32f_toNat hneg]
  omega

/-- The pattern of a narrowed unit sample that is not 1.0: `+0.0`, or at or above the pattern for the raw sample 1. -/
theorem bits32f_unitOf_bounds {r : Word} (h : InRange r) (hne : f32OfF64 (unitOf r) ≠ F32.one) :
    (bits32f (f32OfF64 (unitOf r))).toNat = 0 ∨ 0x30000000 ≤ (bits32f (f32OfF64 (unitOf r))).toNat ∧
      (bits32f (f32OfF64 (unitOf r))).toNat ≤ 0x3F7FFFFF := by
  have hneg : (f32OfF64 (unitOf r)).neg = false := (f32OfF64_neg _).trans (unitOf_neg_of_nonneg h.1)
  rw [Ne, f32OfF64_unitOf_eq_one_iff h] at hne
  rcases h.1.eq_or_lt with hzero | hpos
  · left
    rw [show r = 0#32 from BitVec.eq_of_toInt_eq hzero.symm]
    decide +kernel
  · right
    have hlast : (2147483582#32).toInt = 2147483582 := by decide
    have hlo : 2 ^ 118 ≤ (f32OfF64 (unitOf 1#32)).mag := by decide +kernel
    have hhi : (f32OfF64 (unitOf 2147483582#32)).mag < 2 ^ 149 := by decide +kernel
    have hfrom : (unitOf 1#32).mag ≤ (unitOf r).mag := unitOf_mag_mono (by decide) (one_toInt ▸ hpos)
    have hto : (unitOf r).mag ≤ (unitOf 2147483582#32).mag := unitOf_mag_mono h.1 (by omega)
    exact bits32f_toNat_bounds hneg (hlo.trans (f32OfF64_mag_mono hfrom)) ((f32OfF64_mag_mono hto).trans_lt hhi)

/-! The command `NEXT_SINGLE` (R106). -/

theorem exec_nextSingle_of_unseeded {s : State} (h : s.gen.seeded = false) :
    exec .nextSingle s = .next { s with err := .notSeeded } := if_pos h

theorem exec_nextSingle_of_seeded {s : State} (h : s.gen.seeded = true) :
    exec .nextSingle s = completeLoop singleDraw acceptSingle (fun f => resultF32 (bits32f f)) s := if_neg (by simp [h])

theorem firstAccepted_acceptSingle_iff {n : Nat} {g : Gen} : FirstAccepted singleDraw acceptSingle n g ↔
    f32OfF64 (unitOf (nthDraw rawSample n g)) ≠ F32.one ∧
      ∀ k, k < n → f32OfF64 (unitOf (nthDraw rawSample k g)) = F32.one := by
  simp only [FirstAccepted, acceptSingle_iff, acceptSingle_eq_false_iff, nthDraw_singleDraw]

/-- The loop completes with the first draw that does not narrow to 1.0. -/
theorem exec_nextSingle_of_firstAccepted {s : State} {n : Nat} (hseeded : s.gen.seeded = true)
    (h : FirstAccepted singleDraw acceptSingle n s.gen) : exec .nextSingle s = .next { s with
      gen := afterDraws rawSample (n + 1) s.gen
      res := resultF32 (bits32f (f32OfF64 (unitOf (nthDraw rawSample n s.gen))))
      err := .ok } := by
  rw [exec_nextSingle_of_seeded hseeded, completeLoop_eq_next _ _ _ _ h.lt_redrawBound h, afterDraws_singleDraw,
    nthDraw_singleDraw]

/-- A pattern's value survives its placement in `RES` (R51). -/
theorem resultF32_toNat (b : BitVec 32) : (resultF32 b).toNat = b.toNat :=
  BitVec.toNat_setWidth_of_le (by norm_num)

/-- Settles O46: the loop accepts every draw but 1.0, and its result is the pattern of a narrowed unit sample. -/
theorem nextSingleReturnsTheFirstBelowOne : Obligations.NextSingleReturnsTheFirstBelowOne := by
  refine ⟨fun _ => exec_nextSingle_of_unseeded, fun s n hseeded haccepted hrejected => ?_⟩
  have hexec := exec_nextSingle_of_firstAccepted hseeded (firstAccepted_acceptSingle_iff.mpr ⟨haccepted, hrejected⟩)
  refine ⟨_, hexec, rfl, resultF32_toNat _, fun hr => ?_⟩
  rw [resultF32_toNat]
  exact bits32f_unitOf_bounds hr haccepted

end Sys2Proof.Machine
end

section
/-! The byte fill (spec 44_single_and_bytes.md R108, R109): the byte at each position of a fill, and two fills in a
row. -/

namespace Sys2Proof.Machine

theorem lowByte_toNat (r : Word) : (lowByte r).toNat = r.toNat % 256 := by
  simp [lowByte, BitVec.extractLsb'_toNat]

/-- A fill from position 0 into an empty buffer, position by position (R37, R109). -/
theorem fill_read_eq (len j : Nat) (g : Gen) : Memory.read (fill len 0 g []).2 j =
    if j < len then some (lowByte (nthDraw rawSample j g)) else none := by
  split
  · next h => simpa using fill_read len 0 g [] j h
  · next h => exact fill_read_beyond (not_lt.mp h) g

/-- Below the length of the first fill a joint fill has its bytes. -/
theorem fill_add_read_left {m j : Nat} (n : Nat) (g : Gen) (h : j < m) :
    Memory.read (fill (m + n) 0 g []).2 j = Memory.read (fill m 0 g []).2 j := by
  rw [fill_read_eq, fill_read_eq, if_pos h, if_pos (by omega)]

/-- From there on it has the bytes of a fill that starts where the first one left the generator. -/
theorem fill_add_read_right (m n j : Nat) (g : Gen) : Memory.read (fill (m + n) 0 g []).2 (m + j) =
    Memory.read (fill n 0 (afterDraws rawSample m g) []).2 j := by
  rw [fill_read_eq, fill_read_eq, nthDraw_add]
  simp only [Nat.add_lt_add_iff_left]

theorem exec_fillBytes_of_unseeded {s : State} (len : Nat) (h : s.gen.seeded = false) :
    exec (.fillBytes len) s = .next { s with err := .notSeeded } := if_pos h

theorem exec_fillBytes_of_seeded {s : State} (len : Nat) (h : s.gen.seeded = true) : exec (.fillBytes len) s =
    .next { s with gen := afterDraws rawSample len s.gen, buf := (fill len 0 s.gen []).2, err := .ok } := by
  rw [← fill_gen len 0 s.gen []]
  exact if_neg (by simp [h])

/-- Settles O49: the next state of the command, and its fill read position by position. -/
theorem fillBytesWritesOneByteADraw : Obligations.FillBytesWritesOneByteADraw := by
  refine ⟨fun _ len => exec_fillBytes_of_unseeded len, fun s len hseeded => ?_⟩
  refine ⟨_, exec_fillBytes_of_seeded len hseeded, rfl, fun j hj => ?_, fun j hj => fill_read_beyond hj s.gen⟩
  exact ⟨lowByte (nthDraw rawSample j s.gen), by rw [fill_read_eq, if_pos hj], lowByte_toNat _⟩

/-- Settles O50: without a seed no fill draws; with one, the second fill begins at the generator of the first. -/
theorem fillBytesConcatenates : Obligations.FillBytesConcatenates := by
  intro s t u w m n ht hu hw
  cases hseeded : s.gen.seeded with
  | false =>
    obtain rfl := next_inj ((exec_fillBytes_of_unseeded m hseeded).symm.trans ht)
    obtain rfl := next_inj ((exec_fillBytes_of_unseeded n hseeded).symm.trans hu)
    obtain rfl := next_inj ((exec_fillBytes_of_unseeded (m + n) hseeded).symm.trans hw)
    exact ⟨rfl, nofun⟩
  | true =>
    obtain rfl := next_inj ((exec_fillBytes_of_seeded m hseeded).symm.trans ht)
    have hseeded' := (afterDraws_seeded m s.gen).trans hseeded
    obtain rfl := next_inj ((exec_fillBytes_of_seeded n hseeded').symm.trans hu)
    obtain rfl := next_inj ((exec_fillBytes_of_seeded (m + n) hseeded).symm.trans hw)
    exact ⟨(afterDraws_add rawSample m n s.gen).symm, fun _ j =>
      ⟨fill_add_read_left n s.gen, fill_add_read_right m n j s.gen⟩⟩

end Sys2Proof.Machine
end

section
/-! The errors a command can raise (spec 60_exceptions.md R113, R115, R116): the seed is tested first, then the operands,
and a command that ends in an error has one of the two raised shapes of a next state. -/

namespace Sys2Proof.Machine

/-! `NotSeeded` (R115). -/

/-- Settles O13: the test of `seeded` is the first thing every command but `SEED` does. -/
theorem unseededEngineRefusesAllButSeed : Obligations.UnseededEngineRefusesAllButSeed := by
  intro i s hunseeded hother
  cases i with
  | seed v => exact absurd rfl (hother v)
  | nextRaw => exact exec_nextRaw_of_unseeded hunseeded
  | sampleUnit => exact if_pos hunseeded
  | nextMax hi => exact if_pos hunseeded
  | nextRange lo hi => exact if_pos hunseeded
  | nextInt64 => exact exec_nextInt64_of_unseeded hunseeded
  | nextInt64Range lo hi => exact if_pos hunseeded
  | nextSingle => exact exec_nextSingle_of_unseeded hunseeded
  | fillBytes len => exact exec_fillBytes_of_unseeded len hunseeded

/-! `InvalidRange` (R113): a seeded engine tests the operands before it draws. -/

section invalid_range
variable {s : State} {lo hi : Int} (hseeded : s.gen.seeded = true)
include hseeded

theorem exec_nextMax_of_neg (h : hi < 0) : exec (.nextMax hi) s = .next { s with err := .invalidRange } :=
  (if_neg (by simp [hseeded])).trans (if_pos h)

theorem exec_nextRange_of_lt (h : hi < lo) : exec (.nextRange lo hi) s = .next { s with err := .invalidRange } :=
  (if_neg (by simp [hseeded])).trans (if_pos h)

theorem exec_nextInt64Range_of_lt (h : hi < lo) :
    exec (.nextInt64Range lo hi) s = .next { s with err := .invalidRange } :=
  (if_neg (by simp [hseeded])).trans (if_pos h)

end invalid_range

/-! `raise` (R116). -/

/-- A command that does not end with `OK` has raised `NotSeeded` on an unseeded engine, or `InvalidRange` on a seeded one
by one of the three conditions on its operands. -/
theorem exec_error_cases {i : Instr} {s t : State} (h : exec i s = .next t) (herr : t.err ≠ .ok) :
    (t = { s with err := .notSeeded } ∧ s.gen.seeded = false) ∨
    (t = { s with err := .invalidRange } ∧ s.gen.seeded = true ∧
      ((∃ hi, i = .nextMax hi ∧ hi < 0) ∨ (∃ lo hi, i = .nextRange lo hi ∧ hi < lo) ∨
        ∃ lo hi, i = .nextInt64Range lo hi ∧ hi < lo)) := by
  obtain ⟨v, -, rfl⟩ | ⟨ht, hunseeded, -⟩ | hinvalid | ⟨n, ⟨-, ht⟩, -⟩ | ⟨len, -, -, rfl⟩ := exec_next_cases h
  · exact absurd rfl herr
  · exact .inl ⟨ht, hunseeded⟩
  · exact .inr hinvalid
  · exact absurd (congrArg State.err ht) herr
  · exact absurd rfl herr

/-- Settles O14: each condition raises the error, and a seeded engine ends in an error by nothing else. -/
theorem invalidRangeByExactlyThreeConditions : Obligations.InvalidRangeByExactlyThreeConditions := by
  intro i s hseeded
  constructor
  · rintro (⟨hi, rfl, hneg⟩ | ⟨lo, hi, rfl, hlt⟩ | ⟨lo, hi, rfl, hlt⟩)
    · exact exec_nextMax_of_neg hseeded hneg
    · exact exec_nextRange_of_lt hseeded hlt
    · exact exec_nextInt64Range_of_lt hseeded hlt
  · intro t h herr
    obtain ⟨-, hunseeded⟩ | ⟨-, -, hcondition⟩ := exec_error_cases h (by simp [herr])
    · exact absurd (hunseeded.symm.trans hseeded) Bool.false_ne_true
    · exact hcondition

/-- Settles O15: both shapes of an error are the state before with another `ERR`. -/
theorem errorsChangeNothingElse : Obligations.ErrorsChangeNothingElse := by
  intro i s t h herr
  obtain ⟨rfl, -⟩ | ⟨rfl, -⟩ := exec_error_cases h herr
  · exact ⟨rfl, .inr rfl⟩
  · exact ⟨rfl, .inl rfl⟩

end Sys2Proof.Machine
end

section
/-! Which commands complete (spec 70_reset_and_hazards.md R140). -/

namespace Sys2Proof.Machine

/-- A rejection loop ends in the fault exactly when it rejects every draw for ever: its bound comes after the first
accepted draw, if there is one. -/
theorem completeLoop_eq_fault_iff {α : Type} {draw : Gen → α × Gen} {accept : α → Bool} {place : α → DWord}
    {s : State} :
    completeLoop draw accept place s = .fault .commandNeverCompletes ↔ ∀ k, accept (nthDraw draw k s.gen) = false := by
  rcases completeLoop_cases draw accept place s with ⟨n, -, ⟨haccepted, -⟩, hs⟩ | ⟨hrejected, hs⟩
  · rw [hs]
    exact ⟨nofun, fun h => absurd ((h n).symm.trans haccepted) Bool.false_ne_true⟩
  · refine ⟨fun _ k => Bool.eq_false_iff.mpr fun haccepted => ?_, fun _ => hs⟩
    obtain ⟨n, -, hfirst⟩ := exists_firstAccepted haccepted
    exact absurd ((hrejected n hfirst.lt_redrawBound).symm.trans hfirst.1) Bool.false_ne_true

/-- Settles O47: on a seeded engine each of the commands is its loop. -/
theorem faultMeansTheLoopNeverEnds : Obligations.FaultMeansTheLoopNeverEnds := by
  intro s lo hi hseeded
  refine ⟨?_, ?_, fun hwf hlt => ?_⟩
  · rw [exec_nextInt64_of_seeded hseeded]
    exact completeLoop_eq_fault_iff
  · rw [exec_nextSingle_of_seeded hseeded]
    exact completeLoop_eq_fault_iff
  · have hrange := exclusiveRange_eq_of_wf hwf (by omega)
    have hex : exclusiveRange lo hi = (hi - lo).toNat := by omega
    rw [exec_nextInt64Range_of_one_lt hseeded (by omega) (by omega), hex]
    exact completeLoop_eq_fault_iff

/-- A rejection loop answers a next state or the fault. -/
theorem completeLoop_next_or_fault {α : Type} (draw : Gen → α × Gen) (accept : α → Bool) (place : α → DWord)
    (s : State) : (∃ t, completeLoop draw accept place s = .next t) ∨
      completeLoop draw accept place s = .fault .commandNeverCompletes :=
  (completeLoop_cases draw accept place s).imp (fun ⟨_, _, _, h⟩ => ⟨_, h⟩) And.right

/-- The three commands that are rejection loops. -/
def IsRejectionLoop (i : Instr) : Prop := i = .nextInt64 ∨ i = .nextSingle ∨ ∃ lo hi, i = .nextInt64Range lo hi

/-- Every command answers a next state, or it is one of the three loops and answers the fault. -/
theorem exec_next_or_fault (i : Instr) (s : State) :
    (∃ t, exec i s = .next t) ∨ (IsRejectionLoop i ∧ exec i s = .fault .commandNeverCompletes) := by
  by_cases hseed : ∃ v, i = .seed v
  · obtain ⟨v, rfl⟩ := hseed
    exact .inl ⟨_, exec_seed v s⟩
  cases hseeded : s.gen.seeded with
  | false => exact .inl ⟨_, unseededEngineRefusesAllButSeed i s hseeded fun v e => hseed ⟨v, e⟩⟩
  | true =>
    cases i with
    | seed v => exact absurd ⟨v, rfl⟩ hseed
    | nextRaw => exact .inl ⟨_, exec_nextRaw_of_seeded hseeded⟩
    | sampleUnit => exact .inl ⟨_, exec_sampleUnit_of_seeded hseeded⟩
    | nextMax hi =>
      rcases lt_or_ge hi 0 with hneg | hnonneg
      · exact .inl ⟨_, exec_nextMax_of_neg hseeded hneg⟩
      · exact .inl ⟨_, exec_nextMax_of_seeded hseeded hnonneg⟩
    | nextRange lo hi =>
      rcases lt_or_ge hi lo with hlt | hle
      · exact .inl ⟨_, exec_nextRange_of_lt hseeded hlt⟩
      · exact .inl ⟨_, exec_nextRange_of_seeded hseeded hle⟩
    | nextInt64 =>
      rw [exec_nextInt64_of_seeded hseeded]
      exact (completeLoop_next_or_fault _ _ _ s).imp_right fun h => ⟨.inl rfl, h⟩
    | nextInt64Range lo hi =>
      rcases lt_or_ge hi lo with hlt | hle
      · exact .inl ⟨_, exec_nextInt64Range_of_lt hseeded hlt⟩
      rcases le_or_gt (exclusiveRange lo hi) 1 with hex | hex
      · exact .inl ⟨_, exec_nextInt64Range_of_le_one hseeded hle hex⟩
      · rw [exec_nextInt64Range_of_one_lt hseeded hle hex]
        exact (completeLoop_next_or_fault _ _ _ s).imp_right fun h => ⟨.inr (.inr ⟨lo, hi, rfl⟩), h⟩
    | nextSingle =>
      rw [exec_nextSingle_of_seeded hseeded]
      exact (completeLoop_next_or_fault _ _ _ s).imp_right fun h => ⟨.inr (.inl rfl), h⟩
    | fillBytes len => exact .inl ⟨_, exec_fillBytes_of_seeded len hseeded⟩

/-- Settles O48: the only other answer is a loop's fault. -/
theorem otherCommandsAlwaysComplete : Obligations.OtherCommandsAlwaysComplete := by
  intro i s
  obtain ⟨t, ht⟩ | ⟨hloop, hfault⟩ := exec_next_or_fault i s
  · exact ⟨by simp [ht], fun _ _ _ => ⟨t, ht⟩⟩
  · refine ⟨by simp [hfault], fun hint64 hsingle hrange => ?_⟩
    obtain h | h | ⟨lo, hi, h⟩ := hloop
    · exact absurd h hint64
    · exact absurd h hsingle
    · exact absurd h (hrange lo hi)

end Sys2Proof.Machine
end

section
/-! States that no host can tell apart (spec 70_reset_and_hazards.md R134, 10_state.md R29, 20_memory.md R33). A draw
reads of a generator only what indistinguishable generators share, so commands and steps keep them indistinguishable;
and `SEED` leaves nothing of the generator before it that is read again. -/

namespace Sys2Proof.Machine

/-! One raw sample. -/

/-- `Initialize()` overwrites every live word and reads only the seed. -/
theorem initTable_sameFuture {g h : Gen} (hgh : g.SameFuture h) (hseeded : g.seeded = true) :
    (initTable g).SameFuture (initTable h) where
  seeded := hgh.seeded
  init := rfl
  seed := hgh.seed
  table := fun _ i hi => by
    rw [initTable_read_eq, initTable_read_eq, hgh.seed hseeded]
    exact mixPasses_congr 2 _ _ (mixPasses_congr 2 _ _ (walkedTable_read_congr _ _ _)) i hi
  indexA := fun _ => rfl
  indexB := fun _ => rfl

/-- A draw reads two live words, so word 0 does not matter to it. -/
theorem drawWord_value_congr {g h : Gen} (hgh : g.SameFuture h) (hinit : g.init = true) :
    (drawWord g).1 = (drawWord h).1 := by
  rw [drawWord_value, drawWord_value, hgh.table hinit _ (nextCursor_ne_zero _),
    hgh.table hinit _ (nextCursor_ne_zero _), hgh.indexA hinit, hgh.indexB hinit]

theorem drawWord_sameFuture {g h : Gen} (hgh : g.SameFuture h) (hinit : g.init = true) :
    (drawWord g).2.SameFuture (drawWord h).2 where
  seeded := hgh.seeded
  init := hgh.init
  seed := hgh.seed
  table := fun _ i hi => by
    rw [drawWord_read, drawWord_read, drawWord_value_congr hgh hinit, hgh.indexA hinit, hgh.table hinit i hi]
  indexA := fun _ => congrArg nextCursor (hgh.indexA hinit)
  indexB := fun _ => congrArg nextCursor (hgh.indexB hinit)

/-- Two seeded generators that no command can tell apart. -/
def Gen.SeededAlike (g h : Gen) : Prop := g.seeded = true ∧ g.SameFuture h

/-- A draw that answers the same on seeded generators that no command can tell apart, and leaves them so. -/
def DrawsAlike {α : Type} (draw : Gen → α × Gen) : Prop :=
  ∀ g h : Gen, g.SeededAlike h → (draw g).1 = (draw h).1 ∧ (draw g).2.SeededAlike (draw h).2

theorem rawSample_drawsAlike : DrawsAlike rawSample := by
  intro g h ⟨hseeded, hgh⟩
  have hseeded' : (rawSample g).2.seeded = true := (rawSample_seeded g).trans hseeded
  cases hinit : g.init with
  | true =>
    rw [rawSample_of_init hinit] at hseeded' ⊢
    rw [rawSample_of_init (hgh.init.symm.trans hinit)]
    exact ⟨drawWord_value_congr hgh hinit, hseeded', drawWord_sameFuture hgh hinit⟩
  | false =>
    have hinitTable := initTable_sameFuture hgh hseeded
    rw [rawSample_of_not_init hinit] at hseeded' ⊢
    rw [rawSample_of_not_init (hgh.init.symm.trans hinit)]
    exact ⟨drawWord_value_congr hinitTable rfl, hseeded', drawWord_sameFuture hinitTable rfl⟩

/-! Draws made of raw samples. -/

section compose
variable {α β γ : Type} {draw : Gen → α × Gen} {draw' : Gen → β × Gen}

/-- A function of a draw's value. -/
theorem DrawsAlike.map (hd : DrawsAlike draw) (f : α → β) : DrawsAlike fun g => (f (draw g).1, (draw g).2) :=
  fun g h hgh => (hd g h hgh).imp_left (congrArg f)

/-- A function of the values of two draws in a row. -/
theorem DrawsAlike.map₂ (hd : DrawsAlike draw) (hd' : DrawsAlike draw') (f : α → β → γ) :
    DrawsAlike fun g => (f (draw g).1 (draw' (draw g).2).1, (draw' (draw g).2).2) := by
  intro g h hgh
  obtain ⟨hvalue, hgen⟩ := hd g h hgh
  obtain ⟨hvalue', hgen'⟩ := hd' _ _ hgen
  exact ⟨congrArg₂ f hvalue hvalue', hgen'⟩

theorem DrawsAlike.afterDraws (hd : DrawsAlike draw) (n : Nat) {g h : Gen} (hgh : g.SeededAlike h) :
    (afterDraws draw n g).SeededAlike (afterDraws draw n h) := by
  induction n with
  | zero => exact hgh
  | succ n ih =>
    rw [afterDraws_succ, afterDraws_succ]
    exact (hd _ _ ih).2

theorem DrawsAlike.nthDraw (hd : DrawsAlike draw) (n : Nat) {g h : Gen} (hgh : g.SeededAlike h) :
    nthDraw draw n g = nthDraw draw n h :=
  (hd _ _ (hd.afterDraws n hgh)).1

end compose

theorem unitSample_drawsAlike : DrawsAlike unitSample := rawSample_drawsAlike.map unitOf

theorem boundedDraw_drawsAlike (m : Int) : DrawsAlike (boundedDraw m) := unitSample_drawsAlike.map (scale · m)

theorem largeSample_drawsAlike : DrawsAlike largeSample := rawSample_drawsAlike.map₂ rawSample_drawsAlike largeOf

theorem rangeSample_drawsAlike (range : Int) : DrawsAlike (rangeSample range) := by
  unfold rangeSample
  split
  · exact unitSample_drawsAlike
  · exact largeSample_drawsAlike

theorem uint64Draw_drawsAlike : DrawsAlike uint64Draw :=
  ((boundedDraw_drawsAlike _).map₂ (boundedDraw_drawsAlike _) Prod.mk).map₂ (boundedDraw_drawsAlike _)
    fun p p2 => compose64 p.1 p.2 p2

theorem shiftedDraw_drawsAlike (shift : Nat) : DrawsAlike (shiftedDraw shift) := uint64Draw_drawsAlike.map (· >>> shift)

theorem singleDraw_drawsAlike : DrawsAlike singleDraw := unitSample_drawsAlike.map f32OfF64

/-- A fill writes the same bytes. -/
theorem fill_buf_congr : ∀ (n j : Nat) (g h : Gen) (m : Memory), g.SeededAlike h → (fill n j g m).2 = (fill n j h m).2
  | 0, _, _, _, _, _ => rfl
  | n + 1, j, g, h, m, hgh => by
    obtain ⟨hvalue, hgen⟩ := rawSample_drawsAlike g h hgh
    rw [fill, fill, hvalue]
    exact fill_buf_congr n (j + 1) _ _ _ hgen

/-! Commands. -/

theorem State.SameFuture.exists_gen {s t : State} (h : s.SameFuture t) :
    ∃ g, s.gen.SameFuture g ∧ t = { s with gen := g } := by
  obtain ⟨hgen, harg0, harg1, hres, herr, hbuf, hhost, hcount⟩ := h
  exact ⟨t.gen, hgen, by rw [harg0, harg1, hres, herr, hbuf, hhost, hcount]⟩

/-- States that differ in the generator only are told apart by it only. -/
theorem State.SameFuture.of_gen {g h : Gen} (hgh : g.SameFuture h) (s : State) :
    State.SameFuture { s with gen := g } { s with gen := h } :=
  ⟨hgh, rfl, rfl, rfl, rfl, rfl, rfl, rfl⟩

/-- `SEED` binds the seed and drops table and cursors, so nothing of the generators before it is read again. -/
theorem seed_gen_sameFuture (v : Int) (g h : Gen) :
    Gen.SameFuture { g with seed := wrap32 v, seeded := true, init := false }
      { h with seed := wrap32 v, seeded := true, init := false } :=
  ⟨rfl, rfl, fun _ => rfl, nofun, nofun, nofun⟩

theorem exec_seed_sameOutcome (v : Int) (s : State) (g : Gen) :
    SameOutcome (exec (.seed v) s) (exec (.seed v) { s with gen := g }) := by
  rw [exec_seed, exec_seed]
  exact .of_gen (seed_gen_sameFuture v s.gen g) { s with err := .ok }

/-- What `SEED` leaves of two engines that agree in all but the generator and `STATUS.ERR`. -/
theorem seed_sameFuture (v : Int) {s t s' t' : State} (harg0 : s.arg0 = t.arg0) (harg1 : s.arg1 = t.arg1)
    (hres : s.res = t.res) (hbuf : s.buf = t.buf) (hhost : s.host = t.host) (hcount : s.freeCount = t.freeCount)
    (hs : exec (.seed v) s = .next s') (ht : exec (.seed v) t = .next t') : s'.SameFuture t' := by
  obtain rfl := next_inj ((exec_seed v s).symm.trans hs)
  obtain rfl := next_inj ((exec_seed v t).symm.trans ht)
  exact ⟨seed_gen_sameFuture v s.gen t.gen, harg0, harg1, hres, rfl, hbuf, hhost, hcount⟩

section alike
variable {α : Type} {draw : Gen → α × Gen} {s : State} {h : Gen}

/-- A command that places the value of one draw in `RES`. -/
theorem sameOutcome_of_draw (hd : DrawsAlike draw) (place : α → DWord) (hsh : s.gen.SeededAlike h) :
    SameOutcome (.next { s with gen := (draw s.gen).2, res := place (draw s.gen).1, err := .ok })
      (.next { s with gen := (draw h).2, res := place (draw h).1, err := .ok }) := by
  obtain ⟨hvalue, -, hgen⟩ := hd _ _ hsh
  rw [hvalue]
  exact .of_gen hgen { s with res := place (draw h).1, err := .ok }

/-- A rejection loop accepts the same draw on both sides, or none on either. -/
theorem completeLoop_sameOutcome (hd : DrawsAlike draw) (accept : α → Bool) (place : α → DWord)
    (hsh : s.gen.SeededAlike h) :
    SameOutcome (completeLoop draw accept place s) (completeLoop draw accept place { s with gen := h }) := by
  have hnth := fun k => hd.nthDraw k hsh
  rcases completeLoop_cases draw accept place s with ⟨n, hn, ⟨haccepted, hrejected⟩, hs⟩ | ⟨-, hs⟩
  · have hfirst : FirstAccepted draw accept n h := ⟨hnth n ▸ haccepted, fun k hk => hnth k ▸ hrejected k hk⟩
    rw [hs, completeLoop_eq_next draw accept place _ hn hfirst, hnth]
    exact .of_gen (hd.afterDraws (n + 1) hsh).2 { s with res := place (nthDraw draw n h), err := .ok }
  · have hrejected := completeLoop_eq_fault_iff.mp hs
    have ht : completeLoop draw accept place { s with gen := h } = .fault .commandNeverCompletes :=
      completeLoop_eq_fault_iff.mpr fun k => hnth k ▸ hrejected k
    rw [hs, ht]
    rfl

/-- On a seeded engine every command ends the same way; its test of the operands does not see the generator. -/
theorem exec_sameOutcome_of_seeded (i : Instr) (hsh : s.gen.SeededAlike h) :
    SameOutcome (exec i s) (exec i { s with gen := h }) := by
  have hs : s.gen.seeded = true := hsh.1
  have ht : ({ s with gen := h } : State).gen.seeded = true := hsh.2.seeded.symm.trans hs
  cases i with
  | seed v => exact exec_seed_sameOutcome v s h
  | nextRaw =>
    rw [exec_nextRaw_of_seeded hs, exec_nextRaw_of_seeded ht]
    exact sameOutcome_of_draw rawSample_drawsAlike (fun r => resultI32 r.toInt) hsh
  | sampleUnit =>
    rw [exec_sampleUnit_of_seeded hs, exec_sampleUnit_of_seeded ht]
    exact sameOutcome_of_draw rawSample_drawsAlike (fun r => bits64 (unitOf r)) hsh
  | nextMax hi =>
    rcases lt_or_ge hi 0 with hneg | hnonneg
    · rw [exec_nextMax_of_neg hs hneg, exec_nextMax_of_neg ht hneg]
      exact .of_gen hsh.2 { s with err := .invalidRange }
    · rw [exec_nextMax_of_seeded hs hnonneg, exec_nextMax_of_seeded ht hnonneg]
      exact sameOutcome_of_draw rawSample_drawsAlike (fun r => resultI32 (scale (unitOf r) hi)) hsh
  | nextRange lo hi =>
    rcases lt_or_ge hi lo with hlt | hle
    · rw [exec_nextRange_of_lt hs hlt, exec_nextRange_of_lt ht hlt]
      exact .of_gen hsh.2 { s with err := .invalidRange }
    · rw [exec_nextRange_of_seeded hs hle, exec_nextRange_of_seeded ht hle]
      exact sameOutcome_of_draw (rangeSample_drawsAlike _) (fun d => resultI32 (scale d (hi - lo) + lo)) hsh
  | nextInt64 =>
    rw [exec_nextInt64_of_seeded hs, exec_nextInt64_of_seeded ht]
    exact completeLoop_sameOutcome (shiftedDraw_drawsAlike 1) acceptInt64 id hsh
  | nextInt64Range lo hi =>
    rcases lt_or_ge hi lo with hlt | hle
    · rw [exec_nextInt64Range_of_lt hs hlt, exec_nextInt64Range_of_lt ht hlt]
      exact .of_gen hsh.2 { s with err := .invalidRange }
    rcases le_or_gt (exclusiveRange lo hi) 1 with hex | hex
    · rw [exec_nextInt64Range_of_le_one hs hle hex, exec_nextInt64Range_of_le_one ht hle hex]
      exact .of_gen hsh.2 { s with res := wrap64 lo, err := .ok }
    · rw [exec_nextInt64Range_of_one_lt hs hle hex, exec_nextInt64Range_of_one_lt ht hle hex]
      exact completeLoop_sameOutcome (shiftedDraw_drawsAlike _) _ _ hsh
  | nextSingle =>
    rw [exec_nextSingle_of_seeded hs, exec_nextSingle_of_seeded ht]
    exact completeLoop_sameOutcome singleDraw_drawsAlike acceptSingle _ hsh
  | fillBytes len =>
    rw [exec_fillBytes_of_seeded len hs, exec_fillBytes_of_seeded len ht, fill_buf_congr len 0 _ _ [] hsh]
    exact .of_gen (rawSample_drawsAlike.afterDraws len hsh).2 { s with buf := (fill len 0 h []).2, err := .ok }

end alike

theorem exec_sameOutcome (i : Instr) {s t : State} (h : s.SameFuture t) : SameOutcome (exec i s) (exec i t) := by
  obtain ⟨g, hgen, rfl⟩ := h.exists_gen
  cases hseeded : s.gen.seeded with
  | true => exact exec_sameOutcome_of_seeded i ⟨hseeded, hgen⟩
  | false =>
    by_cases hseed : ∃ v, i = .seed v
    · obtain ⟨v, rfl⟩ := hseed
      exact exec_seed_sameOutcome v s g
    · have hother : ∀ v, i ≠ .seed v := fun v e => hseed ⟨v, e⟩
      rw [unseededEngineRefusesAllButSeed i s hseeded hother,
        unseededEngineRefusesAllButSeed i { s with gen := g } (hgen.seeded.symm.trans hseeded) hother]
      exact .of_gen hgen { s with err := .notSeeded }

/-! Steps. -/

/-- What an abandoned command leaves in the buffer depends on the generator through `seeded` only. -/
theorem abandonedBuffer_congr (s : State) {g : Gen} (h : s.gen.seeded = g.seeded) (c : Byte) :
    State.abandonedBuffer { s with gen := g } c = s.abandonedBuffer c := by
  rw [State.abandonedBuffer, State.abandonedBuffer, h]

theorem act_sameOutcome (a : HostAction) {s : State} {g : Gen} (hgen : s.gen.SameFuture g) :
    SameOutcome (act a s) (act a { s with gen := g }) := by
  cases a with
  | writeArg0 w => exact .of_gen hgen { s with arg0 := w }
  | writeArg1 w => exact .of_gen hgen { s with arg1 := w }
  | writeCmd c =>
    cases hdecode : decode c s.arg0 s.arg1 with
    | ok i =>
      rw [act, act, runCommand_of_ok hdecode, runCommand_of_ok (s := { s with gen := g }) hdecode]
      exact exec_sameOutcome i (.of_gen hgen s)
    | error e =>
      rw [act, act, runCommand_of_error hdecode, runCommand_of_error (s := { s with gen := g }) hdecode]
      exact .of_gen hgen { s with err := .illegalCmd }
  | reset => exact .of_gen ⟨rfl, rfl, fun _ => rfl, fun _ _ _ => rfl, fun _ => rfl, fun _ => rfl⟩ s.afterReset
  | resetDuring c =>
    rw [act, act, resetEventDuring, resetEventDuring, abandonedBuffer_congr s hgen.seeded]
    exact .of_gen ⟨rfl, rfl, fun _ => rfl, fun _ _ _ => rfl, fun _ => rfl, fun _ => rfl⟩
      { s.afterReset with buf := s.abandonedBuffer c }

theorem step_sameOutcome {s t : State} (h : s.SameFuture t) : SameOutcome (step s) (step t) := by
  cases hhost : s.host with
  | nil =>
    rw [step_of_nil hhost, step_of_nil (h.host.symm.trans hhost)]
    exact h
  | cons a rest =>
    rw [step_of_cons hhost, step_of_cons (h.host.symm.trans hhost)]
    obtain ⟨g, hgen, rfl⟩ := h.exists_gen
    exact act_sameOutcome a (s := { s with host := rest }) hgen

/-- Settles O58: the relation goes through every draw, command and host action, and `SEED` establishes it. -/
theorem stepsKeepStatesIndistinguishable : Obligations.StepsKeepStatesIndistinguishable :=
  ⟨fun _ _ => step_sameOutcome, fun v _ _ _ _ => seed_sameFuture v⟩

/-! Runs of any length (R134). -/

/-- Outcomes that no host can tell apart are two such next states, or one end for both. -/
theorem SameOutcome.cases {a b : Result} (h : SameOutcome a b) :
    (∃ s t, a = .next s ∧ b = .next t ∧ s.SameFuture t) ∨ (∃ r, a = .fault r ∧ b = .fault r) ∨
      ∃ r, a = .refused r ∧ b = .refused r := by
  match a, b, h with
  | .next s, .next t, h => exact .inl ⟨s, t, rfl, rfl, h⟩
  | .fault r, .fault _, rfl => exact .inr (.inl ⟨r, rfl, rfl⟩)
  | .refused r, .refused _, rfl => exact .inr (.inr ⟨r, rfl, rfl⟩)

theorem steps_sameOutcome (n : Nat) {s t : State} (h : s.SameFuture t) : SameOutcome (steps n s) (steps n t) := by
  induction n generalizing s t with
  | zero => exact h
  | succ n ih =>
    rw [steps, steps]
    obtain ⟨s', t', hs, ht, h'⟩ | ⟨r, hs, ht⟩ | ⟨r, hs, ht⟩ := (step_sameOutcome h).cases
    · rw [hs, ht]
      exact ih h'
    · rw [hs, ht]
      rfl
    · rw [hs, ht]
      rfl

/-- Settles O17: `SEED` makes the two engines indistinguishable, and runs keep them so. -/
theorem seedForgetsThePast : Obligations.SeedForgetsThePast :=
  fun v _ _ _ _ n harg0 harg1 hres hbuf hhost hcount hs ht =>
    steps_sameOutcome n (seed_sameFuture v harg0 harg1 hres hbuf hhost hcount hs ht)

end Sys2Proof.Machine
end

section
/-! Reset during a command (spec 70_reset_and_hazards.md R132). -/

namespace Sys2Proof.Machine

theorem abandonedBuffer_of_fill {s : State} {c : Byte} {len : Nat}
    (hdecode : decode c s.arg0 s.arg1 = .ok (.fillBytes len)) (hseeded : s.gen.seeded = true) :
    s.abandonedBuffer c = abandonedBuf s.freeCount len := by
  rw [State.abandonedBuffer, hdecode]
  exact if_pos hseeded

theorem abandonedBuffer_of_other {s : State} {c : Byte}
    (h : s.gen.seeded = false ∨ ∀ len, decode c s.arg0 s.arg1 ≠ .ok (.fillBytes len)) :
    s.abandonedBuffer c = s.buf := by
  unfold State.abandonedBuffer
  split
  · next len hdecode =>
    obtain hunseeded | hother := h
    · exact if_neg (by simp [hunseeded])
    · exact absurd hdecode (hother len)
  · rfl

theorem abandonedBuf_read_beyond {n len j : Nat} (h : len ≤ j) : Memory.read (abandonedBuf n len) j = none :=
  Memory.read_eq_none fun _ hc => ((abandonedBuf_lt hc).trans_le h).ne

/-- Settles O11: the step does not run the command; it is the reset event with the buffer of an abandoned command. -/
theorem resetDuringACommandAbandonsIt : Obligations.ResetDuringACommandAbandonsIt := by
  intro s c rest hhost
  have hbuffer : State.abandonedBuffer { s with host := rest } c = s.abandonedBuffer c := rfl
  refine ⟨{ State.afterReset { s with host := rest } with buf := s.abandonedBuffer c }, ?_, rfl, rfl,
    afterReset_status _, rfl, fun len hdecode hseeded => ?_, abandonedBuffer_of_other⟩
  · rw [step_of_cons hhost, act, resetEventDuring, hbuffer]
  · rw [abandonedBuffer_of_fill hdecode hseeded]
    exact ⟨abandonedBuf_wf _ _, fun _ => abandonedBuf_read_beyond⟩

end Sys2Proof.Machine
end

section
/-! How many raw samples each command consumes (spec 70_reset_and_hazards.md R141). -/

namespace Sys2Proof.Machine

theorem afterDraws_init_of_pos {n : Nat} (h : 1 ≤ n) (g : Gen) : (afterDraws rawSample n g).init = true := by
  obtain ⟨n, rfl⟩ := Nat.exists_eq_add_of_le' h
  rw [afterDraws_succ, rawSample_init]

/-- The generator of a command's next state, from an equation that gives that state. -/
theorem gen_eq_of_exec {i : Instr} {s t u : State} (hexec : exec i s = .next u) (h : exec i s = .next t) :
    t.gen = u.gen := by
  rw [next_inj (h.symm.trans hexec)]

/-- A loop whose draws take `c` raw samples each consumes `c` for every iteration. -/
theorem completeLoop_gen {α : Type} {draw : Gen → α × Gen} {accept : α → Bool} {place : α → DWord}
    {s t : State} (c : Nat) (hseeded : s.gen.seeded = true) (hdraw : ∀ g, (draw g).2 = afterDraws rawSample c g)
    (h : completeLoop draw accept place s = .next t) : ∃ k, 1 ≤ k ∧ t.gen = afterDraws rawSample (c * k) s.gen := by
  obtain ⟨n, -, ⟨-, ht⟩, -⟩ := completeLoop_sampled c hseeded hdraw h
  exact ⟨n + 1, Nat.succ_pos n, congrArg State.gen ht⟩

/-- `NEXT_INT64_RANGE` draws nothing for a range of 0 or 1, once for a power of two, else at least once. -/
theorem exec_nextInt64Range_gen {s t : State} {lo hi : Int} (hseeded : s.gen.seeded = true) (hle : lo ≤ hi)
    (hwf : (Instr.nextInt64Range lo hi).wf = true) (h : exec (.nextInt64Range lo hi) s = .next t) :
    ∃ k, t.gen = afterDraws rawSample (3 * k) s.gen ∧ (k = 0 ↔ hi - lo ≤ 1) ∧
      ((∃ b : Nat, 1 ≤ b ∧ hi - lo = 2 ^ b) → k = 1) := by
  have hrange := exclusiveRange_eq_of_wf hwf hle
  by_cases hpow : ∃ b : Nat, 1 ≤ b ∧ hi - lo = 2 ^ b
  · obtain ⟨b, hb, hdiff⟩ := hpow
    obtain rfl : hi = lo + 2 ^ b := by omega
    obtain ⟨u, hu, -, hgen⟩ := powerOfTwoRangeTakesOneDraw s lo b hseeded hwf hb
    have htwo : (2 : Int) ^ 1 ≤ 2 ^ b := pow_le_pow_right₀ (by norm_num) hb
    exact ⟨1, (gen_eq_of_exec hu h).trans hgen, by omega, fun _ => rfl⟩
  rcases le_or_gt (exclusiveRange lo hi) 1 with hex | hex
  · have hgen := gen_eq_of_exec (exec_nextInt64Range_of_le_one hseeded hle hex) h
    exact ⟨0, hgen, by omega, fun hb => absurd hb hpow⟩
  · rw [exec_nextInt64Range_of_one_lt hseeded hle hex] at h
    obtain ⟨k, hk, hgen⟩ := completeLoop_gen 3 hseeded (shiftedDraw_gen _) h
    exact ⟨k, hgen, by omega, fun hb => absurd hb hpow⟩

/-- Settles O51: the generator of each command's next state, counted in raw samples. -/
theorem drawCounts : Obligations.DrawCounts := by
  refine ⟨fun g n hn => afterDraws_init_of_pos hn g, fun i s t h herr => ?_, fun v s t h => ?_,
    fun s t lo hi len hseeded hle => ⟨?_, ?_, fun hhi => ?_, fun h => ?_, fun h => ?_, fun hwf => ?_, fun h => ?_, ?_⟩⟩
  · rw [(errorsChangeNothingElse i s t h herr).1]
  · rw [gen_eq_of_exec (exec_seed v s) h]
    exact ⟨rfl, rfl, rfl, rfl⟩
  · exact gen_eq_of_exec (exec_nextRaw_of_seeded hseeded)
  · exact gen_eq_of_exec (exec_sampleUnit_of_seeded hseeded)
  · exact gen_eq_of_exec (exec_nextMax_of_seeded hseeded hhi)
  · rw [gen_eq_of_exec (exec_nextRange_of_seeded hseeded hle) h]
    exact rangeSample_gen _ _
  · rw [exec_nextInt64_of_seeded hseeded] at h
    exact completeLoop_gen 3 hseeded (shiftedDraw_gen 1) h
  · exact exec_nextInt64Range_gen hseeded hle hwf
  · rw [exec_nextSingle_of_seeded hseeded] at h
    simpa only [Nat.one_mul] using completeLoop_gen 1 hseeded singleDraw_gen h
  · exact gen_eq_of_exec (exec_fillBytes_of_seeded len hseeded)

end Sys2Proof.Machine
end
